-- ==== Sys2Proof/Word.lean ====
section
/-! DEFINITION. The machine's words: 8-bit registers and memory cells, 16-bit PC, I and instruction words, register
numbers and key ids (00_scope.md R7; 10_state.md R30, R35, R37, R47). -/

namespace Sys2Proof

/-- A memory cell, a general register, a timer, a sprite row (00_scope.md R7). -/
abbrev Byte := BitVec 8

/-- PC, I, a return address, an instruction word (00_scope.md R7; 30_encoding.md R100). -/
abbrev Word := BitVec 16

/-- The number of a general register, V0..VF (10_state.md R30). -/
abbrev Reg := Fin 16

/-- The id of a key, 0x0..0xF (10_state.md R47). -/
abbrev KeyId := Fin 16

/-- VF, the register that is also the flag (10_state.md R31). -/
abbrev regVF : Reg := 15

/-- V0, read by `Bnnn` whatever the word's nibbles (10_state.md R30; 40_step_and_control.md R137). -/
abbrev regV0 : Reg := 0

end Sys2Proof
end

