-- ==== Sys2Proof/Syntax.lean ====
section
/-! DEFINITION. The instructions, one constructor per row of spec/opcode_table.json (30_encoding.md R104), and the
unknown words (R105). -/

namespace Sys2Proof

/-- One instruction with its operand fields (30_encoding.md R101, R102). `x`, `y` are register numbers, `kk` an 8-bit
immediate, `nnn` a 12-bit address, `n` a sprite height. -/
inductive Instr where
  /-- ZERO, `0000` (R133) -/
  | zero
  /-- CLS, `00E0` (R240) -/
  | cls
  /-- RET, `00EE` (R134) -/
  | ret
  /-- JP, `1nnn` (R136) -/
  | jp (nnn : BitVec 12)
  /-- CALL, `2nnn` (R135) -/
  | call (nnn : BitVec 12)
  /-- SE_VX_KK, `3xkk` (R140) -/
  | seVxKk (x : Reg) (kk : Byte)
  /-- SNE_VX_KK, `4xkk` (R141) -/
  | sneVxKk (x : Reg) (kk : Byte)
  /-- SE_VX_VY, `5xy0` (R142) -/
  | seVxVy (x y : Reg)
  /-- LD_VX_KK, `6xkk` (R170) -/
  | ldVxKk (x : Reg) (kk : Byte)
  /-- ADD_VX_KK, `7xkk` (R171) -/
  | addVxKk (x : Reg) (kk : Byte)
  /-- LD_VX_VY, `8xy0` (R172) -/
  | ldVxVy (x y : Reg)
  /-- OR, `8xy1` (R173) -/
  | orVxVy (x y : Reg)
  /-- AND, `8xy2` (R174) -/
  | andVxVy (x y : Reg)
  /-- XOR, `8xy3` (R175) -/
  | xorVxVy (x y : Reg)
  /-- ADD_VX_VY, `8xy4` (R176) -/
  | addVxVy (x y : Reg)
  /-- SUB, `8xy5` (R177) -/
  | subVxVy (x y : Reg)
  /-- SHR, `8xy6` (R178); the ignored nibble `y` is kept so that no bit of the word is lost -/
  | shr (x y : Reg)
  /-- SUBN, `8xy7` (R179) -/
  | subnVxVy (x y : Reg)
  /-- SHL, `8xyE` (R180); the ignored nibble `y` is kept so that no bit of the word is lost -/
  | shl (x y : Reg)
  /-- SNE_VX_VY, `9xy0` (R143) -/
  | sneVxVy (x y : Reg)
  /-- LD_I_NNN, `Annn` (R210) -/
  | ldINnn (nnn : BitVec 12)
  /-- JP_V0_NNN, `Bnnn` (R137) -/
  | jpV0Nnn (nnn : BitVec 12)
  /-- RND, `Cxkk` (R181) -/
  | rnd (x : Reg) (kk : Byte)
  /-- DRW, `Dxyn` (R243) -/
  | drw (x y : Reg) (n : Fin 16)
  /-- SKP, `Ex9E` (R270) -/
  | skp (x : Reg)
  /-- SKNP, `ExA1` (R271) -/
  | sknp (x : Reg)
  /-- LD_VX_DT, `Fx07` (R272) -/
  | ldVxDt (x : Reg)
  /-- LD_VX_K, `Fx0A` (R275) -/
  | ldVxK (x : Reg)
  /-- LD_DT_VX, `Fx15` (R273) -/
  | ldDtVx (x : Reg)
  /-- LD_ST_VX, `Fx18` (R274) -/
  | ldStVx (x : Reg)
  /-- ADD_I_VX, `Fx1E` (R211) -/
  | addIVx (x : Reg)
  /-- LD_F_VX, `Fx29` (R212) -/
  | ldFVx (x : Reg)
  /-- LD_B_VX, `Fx33` (R213) -/
  | ldBVx (x : Reg)
  /-- LD_MEM_VX, `Fx55` (R214) -/
  | ldMemVx (x : Reg)
  /-- LD_VX_MEM, `Fx65` (R215) -/
  | ldVxMem (x : Reg)
  /-- UNKNOWN, a word of no other row (30_encoding.md R105, R138) -/
  | unknown (op : Word)
deriving DecidableEq, Repr

end Sys2Proof
end

