-- ==== Sys2Proof/Decode.lean ====
section
/-! DEFINITION. Decoding a word by its nibbles (30_encoding.md R101 to R105) and, after it, encoding an instruction by
the patterns of R104. -/

namespace Sys2Proof

/-! ## The fields of a word (R101) -/

def opFamily (op : Word) : BitVec 4 := op.extractLsb' 12 4
def fieldX (op : Word) : Reg := (op.extractLsb' 8 4).toFin
def fieldY (op : Word) : Reg := (op.extractLsb' 4 4).toFin
def fieldN (op : Word) : Fin 16 := (op.extractLsb' 0 4).toFin
def fieldKk (op : Word) : Byte := op.extractLsb' 0 8
def fieldNnn (op : Word) : BitVec 12 := op.extractLsb' 0 12

/-! ## Decoding -/

/-- Family 0 has three words; the sentinel 0x0000 is selected before any other test (R103, R104). -/
def decodeFamily0 (op : Word) : Instr :=
  if op = 0x0000#16 then .zero
  else if op = 0x00E0#16 then .cls
  else if op = 0x00EE#16 then .ret
  else .unknown op

/-- Family 8, by its low nibble (R104). -/
def decodeFamily8 (op : Word) : Instr :=
  match (fieldN op).val with
  | 0x0 => .ldVxVy (fieldX op) (fieldY op)
  | 0x1 => .orVxVy (fieldX op) (fieldY op)
  | 0x2 => .andVxVy (fieldX op) (fieldY op)
  | 0x3 => .xorVxVy (fieldX op) (fieldY op)
  | 0x4 => .addVxVy (fieldX op) (fieldY op)
  | 0x5 => .subVxVy (fieldX op) (fieldY op)
  | 0x6 => .shr (fieldX op) (fieldY op)
  | 0x7 => .subnVxVy (fieldX op) (fieldY op)
  | 0xE => .shl (fieldX op) (fieldY op)
  | _ => .unknown op

/-- Family E, by its low byte (R102, R104). -/
def decodeFamilyE (op : Word) : Instr :=
  match (fieldKk op).toNat with
  | 0x9E => .skp (fieldX op)
  | 0xA1 => .sknp (fieldX op)
  | _ => .unknown op

/-- Family F, by its low byte (R102, R104). -/
def decodeFamilyF (op : Word) : Instr :=
  match (fieldKk op).toNat with
  | 0x07 => .ldVxDt (fieldX op)
  | 0x0A => .ldVxK (fieldX op)
  | 0x15 => .ldDtVx (fieldX op)
  | 0x18 => .ldStVx (fieldX op)
  | 0x1E => .addIVx (fieldX op)
  | 0x29 => .ldFVx (fieldX op)
  | 0x33 => .ldBVx (fieldX op)
  | 0x55 => .ldMemVx (fieldX op)
  | 0x65 => .ldVxMem (fieldX op)
  | _ => .unknown op

/-- One word to one instruction: every fixed nibble must match (R103, 92_eei_decisions.md D4), every other word is
unknown (R105). -/
def decodeWord (op : Word) : Instr :=
  match (opFamily op).toNat with
  | 0x0 => decodeFamily0 op
  | 0x1 => .jp (fieldNnn op)
  | 0x2 => .call (fieldNnn op)
  | 0x3 => .seVxKk (fieldX op) (fieldKk op)
  | 0x4 => .sneVxKk (fieldX op) (fieldKk op)
  | 0x5 => if (fieldN op).val = 0 then .seVxVy (fieldX op) (fieldY op) else .unknown op
  | 0x6 => .ldVxKk (fieldX op) (fieldKk op)
  | 0x7 => .addVxKk (fieldX op) (fieldKk op)
  | 0x8 => decodeFamily8 op
  | 0x9 => if (fieldN op).val = 0 then .sneVxVy (fieldX op) (fieldY op) else .unknown op
  | 0xA => .ldINnn (fieldNnn op)
  | 0xB => .jpV0Nnn (fieldNnn op)
  | 0xC => .rnd (fieldX op) (fieldKk op)
  | 0xD => .drw (fieldX op) (fieldY op) (fieldN op)
  | 0xE => decodeFamilyE op
  | _ => decodeFamilyF op

/-- `{hi, lo}`, the byte at the lower address in the upper bits (00_scope.md R11; 20_memory.md R74). -/
def wordOfBytes (hi lo : Byte) : Word := BitVec.ofNat 16 (hi.toNat * 256 + lo.toNat)

/-- A word as memory stores it: the high byte, at the lower address, and the low byte (20_memory.md R74). -/
def highByte (op : Word) : Byte := op.extractLsb' 8 8
def lowByte (op : Word) : Byte := op.extractLsb' 0 8

/-- Why bytes are not an instruction: every instruction is exactly 2 bytes (30_encoding.md R100). Every word of 2 bytes
is an instruction or an unknown word (R106). -/
inductive DecodeError where
  | noBytes
  | oneByteOnly (b : Byte)
deriving DecidableEq, Repr

/-- The instruction the first two bytes hold, and the bytes after it. -/
def decode : List Byte → Except DecodeError (Instr × List Byte)
  | [] => .error .noBytes
  | [b] => .error (.oneByteOnly b)
  | hi :: lo :: rest => .ok (decodeWord (wordOfBytes hi lo), rest)

/-! ## Encoding (R104) -/

/-- The formats of R101, each field at its place: family and address; family, register and byte; family and three
nibbles. -/
def packNnn (family : Nat) (nnn : BitVec 12) : Word := BitVec.ofNat 16 (family * 0x1000 + nnn.toNat)
def packXkk (family : Nat) (x : Reg) (kk : Byte) : Word :=
  BitVec.ofNat 16 (family * 0x1000 + x.val * 0x100 + kk.toNat)
def packXyn (family : Nat) (x y : Reg) (n : Fin 16) : Word :=
  BitVec.ofNat 16 (family * 0x1000 + x.val * 0x100 + y.val * 0x10 + n.val)

/-- The word of an instruction, by the patterns of R104; the word of an unknown word is itself. -/
def encode : Instr → Word
  | .zero => 0x0000
  | .cls => 0x00E0
  | .ret => 0x00EE
  | .jp nnn => packNnn 0x1 nnn
  | .call nnn => packNnn 0x2 nnn
  | .seVxKk x kk => packXkk 0x3 x kk
  | .sneVxKk x kk => packXkk 0x4 x kk
  | .seVxVy x y => packXyn 0x5 x y 0x0
  | .ldVxKk x kk => packXkk 0x6 x kk
  | .addVxKk x kk => packXkk 0x7 x kk
  | .ldVxVy x y => packXyn 0x8 x y 0x0
  | .orVxVy x y => packXyn 0x8 x y 0x1
  | .andVxVy x y => packXyn 0x8 x y 0x2
  | .xorVxVy x y => packXyn 0x8 x y 0x3
  | .addVxVy x y => packXyn 0x8 x y 0x4
  | .subVxVy x y => packXyn 0x8 x y 0x5
  | .shr x y => packXyn 0x8 x y 0x6
  | .subnVxVy x y => packXyn 0x8 x y 0x7
  | .shl x y => packXyn 0x8 x y 0xE
  | .sneVxVy x y => packXyn 0x9 x y 0x0
  | .ldINnn nnn => packNnn 0xA nnn
  | .jpV0Nnn nnn => packNnn 0xB nnn
  | .rnd x kk => packXkk 0xC x kk
  | .drw x y n => packXyn 0xD x y n
  | .skp x => packXkk 0xE x 0x9E
  | .sknp x => packXkk 0xE x 0xA1
  | .ldVxDt x => packXkk 0xF x 0x07
  | .ldVxK x => packXkk 0xF x 0x0A
  | .ldDtVx x => packXkk 0xF x 0x15
  | .ldStVx x => packXkk 0xF x 0x18
  | .addIVx x => packXkk 0xF x 0x1E
  | .ldFVx x => packXkk 0xF x 0x29
  | .ldBVx x => packXkk 0xF x 0x33
  | .ldMemVx x => packXkk 0xF x 0x55
  | .ldVxMem x => packXkk 0xF x 0x65
  | .unknown op => op

/-- The bytes of an instruction in memory order (20_memory.md R74). -/
def encodeBytes (i : Instr) : List Byte := [highByte (encode i), lowByte (encode i)]

/-! ## The host's reading of a table word -/

/-- A table word of `nbits` bits, every bit above them 0, as the bytes the hardware stores. -/
def tableBytes (nbits w : Nat) : List Byte :=
  let op : Word := BitVec.ofNat 16 (w % 2 ^ nbits)
  [highByte op, lowByte op]

/-- The instruction the decoder reads from a table word. -/
def decodeTableWord (nbits w : Nat) : Option Instr :=
  match decode (tableBytes nbits w) with
  | .ok (i, _) => some i
  | .error _ => none

end Sys2Proof
end

