-- ==== Sys2Proof/Config.lean ====
section
/-! DEFINITION. What the spec leaves open and the model does not choose: the font's place and bytes, and the random
bytes. Each is an opaque constant, so no proof can see a value of it, and a claim holds whatever the value is. -/

namespace Sys2Proof

/-- What the sentinel word 0x0000 does to PC (00_scope.md R8; 40_step_and_control.md R133; 92_eei_decisions.md D2).
`advance` is the spec's choice; `hold` is the other value the spec keeps. -/
inductive ZeroWordPolicy where
  | advance
  | hold
deriving DecidableEq, Repr

/-- FONT_BASE (00_scope.md R8, 20_memory.md R71, D5): open, but for the constraint FONT_BASE + 80 <= 0x200, which the
type states. Log 4. -/
opaque Config.fontBase : Fin 0x1B1

/-- FONT_DATA (00_scope.md R8, 20_memory.md R71, D6): 80 bytes, open. Log 5. -/
opaque Config.fontData : Fin 80 → Byte

/-- The byte the `rng` input presents at the n-th draw (00_scope.md R15, 41_register_alu.md R181, D31): any byte, with
no law. Log 3. -/
opaque Config.rngByte : Nat → Byte

end Sys2Proof
end

