-- ==== Sys2Proof/Machine/State.lean ====
section
/-! DEFINITION. The state of the block (10_state.md), the events that change it (00_scope.md R6), and the state after
reset (R48). -/

namespace Sys2Proof.Machine

/-- The four fatal errors with the info each records (60_exceptions.md R300). `pc` is the fetch address; `addr` the
first byte address above 0xFFF, exact (20_memory.md R72). -/
inductive FatalError where
  | stackOverflow (pc : Word)
  | stackUnderflow (pc : Word)
  | addressOutOfRange (addr : Nat) (pc : Word)
  | unknownOpcode (word : Word) (pc : Word)
deriving DecidableEq, Repr

/-- The block's execution state (10_state.md R45). -/
inductive Mode where
  /-- a step executes one instruction -/
  | running
  /-- `Fx0A` has executed; the next new key press goes to register `x` -/
  | waiting (x : Reg)
  /-- a fatal error has occurred; only a reset leaves this mode -/
  | faulted (e : FatalError)
deriving DecidableEq, Repr

/-- The event inputs of the block (00_scope.md R6; 60_exceptions.md R320). -/
inductive Event where
  | step
  | tickDt
  | tickSt
  | keyDown (id : KeyId)
  | keyUp (id : KeyId)
  | reset (rom : List Byte)
  | stop
  | start
deriving DecidableEq, Repr

/-- One event of the diagnostics channel (60_exceptions.md R305): an unknown word and its fetch address. -/
structure DiagEvent where
  word : Word
  addr : Word
deriving DecidableEq, Repr

/-- 4096 byte cells at 0x000..0xFFF (10_state.md R43), as the cells that differ from their reset value, by rising
address. What an unlisted address reads as is `Memory.unlisted`. -/
abbrev Memory := List Host.Cell

/-- 32 rows of 64 one-bit pixels (10_state.md R42): pixel (x, y) is bit x of row y. -/
abbrev Framebuffer := Vector (BitVec 64) 32

/-- Everything the spec gives the block, its two parameters with a default, and the plain data the model adds for the
block's inputs and outputs (INVENTORY.md, State). -/
structure State where
  /-- V0..VF (R30, R31) -/
  v : Vector Byte 16
  /-- the index register (R35) -/
  i : Word
  /-- the program counter (R37) -/
  pc : Word
  /-- the delay timer (R39) -/
  dt : Byte
  /-- the sound timer (R40) -/
  st : Byte
  /-- the call stack S, its last entry the top (R41, 00_scope.md R12) -/
  stack : List Word
  /-- the framebuffer FB (R42) -/
  fb : Framebuffer
  /-- the memory M (R43) -/
  mem : Memory
  /-- the execution mode (R45) -/
  mode : Mode
  /-- 1 while the three periodic tasks run (R46) -/
  enabled : Bool
  /-- the parameter STRICT_UNKNOWN (00_scope.md R8, D3); no event changes it. Log 6. -/
  strictUnknown : Bool
  /-- the parameter ZERO_WORD_POLICY (00_scope.md R8, D2); no event changes it. Log 7. -/
  zeroWordPolicy : ZeroWordPolicy
  /-- the Input Surface, an input of the block: bit id is 1 while key id is down (R47). Log 8. -/
  keys : BitVec 16
  /-- the model's own: the events to come, the next one first; none listed means a `step` comes next. Log 2. -/
  schedule : List Event
  /-- the model's own: how many bytes have been drawn from the `rng` input. Log 3. -/
  rngDraws : Nat
  /-- the model's own: what the `diag` output has carried so far, oldest first. Log 9. -/
  diagLog : List DiagEvent
deriving DecidableEq, Repr

/-- No step ends in the host's fault outcome: the spec describes what every fatal error does to the block
(60_exceptions.md R301), so the model takes it, as a next state in mode Faulted. Raised by nobody; safe. Log 1. -/
inductive Fault where
deriving DecidableEq, Repr

/-- Why an instruction has no meaning. -/
inductive Refusal where
  /-- raised by an arm of exec whose instruction has no meaning yet (none has stayed so); safe -/
  | notModelled (mnemonic : String)
deriving DecidableEq, Repr

/-- The outcome of one step of this machine. -/
abbrev Result := Host.Outcome State Fault Refusal

/-- The block after power-on, a reset with the empty ROM, with the tasks enabled (10_state.md R48; 70_reset_and_hazards.md
R340, R342). The parameters hold the spec's defaults (D2, D3); no key is down (log 8). -/
def State.reset : State where
  v := Vector.replicate 16 0
  i := 0
  pc := 0x0200
  dt := 0
  st := 0
  stack := []
  fb := Vector.replicate 32 0
  mem := []
  mode := .running
  enabled := true
  strictUnknown := false
  zeroWordPolicy := .advance
  keys := 0
  schedule := []
  rngDraws := 0
  diagLog := []

end Sys2Proof.Machine
end

