-- ==== Sys2Proof/Machine/Ops.lean ====
section
/-! DEFINITION. The shared operations: registers, memory, the call stack, and taking a fatal error. -/

namespace Sys2Proof.Machine

/-! ## Registers (10_state.md R30; 00_scope.md R12) -/

/-- `V[x]`. -/
def State.getV (s : State) (x : Reg) : Byte := s.v[x.val]

/-- `V[x] <- b`. -/
def State.setV (s : State) (x : Reg) (b : Byte) : State := { s with v := s.v.set x.val b }

/-- V0..Vx as bytes, V0 first (42_index_memory.md R214). -/
def State.regsUpTo (s : State) (x : Reg) : List Byte := s.v.toList.take (x.val + 1)

/-- `for k in 0 .. x: V[k] <- bytes[k]` (42_index_memory.md R215); a register with no byte keeps its value. -/
def State.setRegs (s : State) (bytes : List Byte) : State :=
  { s with v := Vector.ofFn fun k : Fin 16 => bytes.getD k.val (s.getV k) }

/-! ## The address space (20_memory.md R70 to R73) -/

/-- The highest address. -/
def topAddr : Nat := 0xFFF

/-- Where the ROM is loaded and the first instruction is fetched (R71, R84; 70_reset_and_hazards.md R341). -/
def romBase : Nat := 0x200

/-- The most bytes a ROM may have (R84). -/
def romMax : Nat := 0xE00

/-- FONT_BASE as a number (R71). -/
def fontBaseAddr : Nat := Config.fontBase.val

/-- The byte of FONT_DATA at offset `k`, and 0 past its 80 bytes. -/
def fontByte (k : Nat) : Byte := if h : k < 80 then Config.fontData ⟨k, h⟩ else 0

/-- What an unlisted address reads as: its value at reset, outside the ROM. The font lies below 0x200 (00_scope.md R8);
every other byte is 0x00 (10_state.md R48, D7). Log 11. -/
def Memory.unlisted (a : Nat) : Byte :=
  if romBase ≤ a then 0 else if fontBaseAddr ≤ a then fontByte (a - fontBaseAddr) else 0

/-- `M[a]` (00_scope.md R13). -/
def Memory.read : Memory → Nat → Byte
  | [], a => Memory.unlisted a
  | (b, w) :: rest, a => if b = a then w else Memory.read rest a

/-- Put a cell in its place by rising address. -/
def Memory.insertCell : Memory → Nat → Byte → Memory
  | [], a, w => [(a, w)]
  | (b, u) :: rest, a, w => if a < b then (a, w) :: (b, u) :: rest else (b, u) :: Memory.insertCell rest a w

/-- `M[a] <- w`: the old cell of `a` goes, and a new one comes unless `a` now reads as unlisted. -/
def Memory.write (m : Memory) (a : Nat) (w : Byte) : Memory :=
  let others := m.filter fun c => c.1 != a
  if w = Memory.unlisted a then others else Memory.insertCell others a w

/-- Every address of the list lies above `lo`, and they rise. -/
def Memory.risesAbove : Nat → Memory → Bool
  | _, [] => true
  | lo, (a, _) :: rest => decide (lo < a) && Memory.risesAbove a rest

/-- The canonical form: addresses strictly rising, all in 0x000..0xFFF, no cell that says what unlisted says. -/
def Memory.wf (m : Memory) : Bool :=
  (match m with
    | [] => true
    | (a, _) :: rest => Memory.risesAbove a rest) &&
  m.all fun c => decide (c.1 ≤ topAddr) && c.2 != Memory.unlisted c.1

/-- `n` bytes from address `a` up (R75). -/
def Memory.readBytes (m : Memory) (a n : Nat) : List Byte := (List.range n).map fun k => m.read (a + k)

/-- The bytes of a list from address `a` up, one at a time (R75). -/
def Memory.writeBytes (m : Memory) (a : Nat) : List Byte → Memory
  | [] => m
  | w :: rest => Memory.writeBytes (m.write a w) (a + 1) rest

/-! ## Taking a fatal error (00_scope.md R14; 60_exceptions.md R301, R308) -/

/-- The state a fatal error leaves: the mode becomes Faulted with the error and its info, nothing else changes. -/
def State.faultWith (s : State) (e : FatalError) : State := { s with mode := .faulted e }

/-- `raise E(info)`: the instruction ends at once; the block goes on to be in mode Faulted. -/
def raise (e : FatalError) (s : State) : Result := .next (s.faultWith e)

/-- The fetch address of the instruction that is executing: PC has been advanced by 2, modulo 2^16 (10_state.md R37;
40_step_and_control.md R131). Log 10. -/
def State.fetchAddr (s : State) : Word := s.pc - 2

/-- `CheckRange(a, n)` (00_scope.md R13): the first of the `n` addresses from `a` up that lies above 0xFFF. -/
def checkRange (a n : Nat) : Option Nat :=
  if 0 < n ∧ topAddr < a + n - 1 then some (max a (topAddr + 1)) else none

/-- Check the whole range before the first access; out of range is AddressOutOfRange, else go on to `ok`
(20_memory.md R72, R75; 60_exceptions.md R302). -/
def withRange (a n : Nat) (s : State) (ok : State) : Result :=
  match checkRange a n with
  | some bad => raise (.addressOutOfRange bad s.fetchAddr) s
  | none => .next ok

/-! ## The program counter and the call stack -/

/-- `if c: PC <- (PC + 2) mod 2^16` (40_step_and_control.md R139). -/
def State.skipIf (s : State) (c : Bool) : State := if c then { s with pc := s.pc + 2 } else s

/-- The most return addresses the stack holds (10_state.md R41). -/
def stackDepth : Nat := 16

/-- Push PC and go to `target`; StackOverflow on a full stack (R135, R303). A deeper stack, which no run reaches,
counts as full (log 14). -/
def pushAndJump (target : Word) (s : State) : Result :=
  if stackDepth ≤ s.stack.length then raise (.stackOverflow s.fetchAddr) s
  else .next { s with stack := s.stack ++ [s.pc], pc := target }

/-- Pop the top of the stack into PC; StackUnderflow on an empty stack (R134, R303). -/
def popIntoPc (s : State) : Result :=
  match s.stack.getLast? with
  | none => raise (.stackUnderflow s.fetchAddr) s
  | some top => .next { s with pc := top, stack := s.stack.dropLast }

/-! ## The diagnostics channel -/

/-- `diag(word, addr)`: one event on the channel, no state of the block changes (00_scope.md R15; 60_exceptions.md
R305). -/
def State.emitDiag (s : State) (word addr : Word) : State := { s with diagLog := s.diagLog ++ [⟨word, addr⟩] }

end Sys2Proof.Machine
end

