-- ==== Sys2Proof/Machine/Flags.lean ====
section
/-! DEFINITION. VF as the flag (10_state.md R31, R32) and every condition that defines it (41_register_alu.md R176 to
R180). The collision flag of Dxyn is computed by the draw (Machine/Display.lean). -/

namespace Sys2Proof.Machine

/-- A flag as VF holds it: 0 or 1 (10_state.md R31). -/
def flagByte (f : Bool) : Byte := if f then 1 else 0

/-- `VF <- f`. -/
def State.setFlag (s : State) (f : Bool) : State := s.setV regVF (flagByte f)

/-- `V[x]` first, `VF` last, so that with x = F VF ends as the flag (10_state.md R32, D1). -/
def State.setResult (s : State) (x : Reg) (r : Byte) (f : Bool) : State := (s.setV x r).setFlag f

/-- Carry out of bit 7 (R176). -/
def carryFlag (vx vy : Byte) : Bool := decide (255 < vx.toNat + vy.toNat)

/-- The first strictly greater than the second: the flag of both subtractions (R177, R179). -/
def greaterFlag (a b : Byte) : Bool := decide (b.toNat < a.toNat)

/-- Bit 0 before a shift right (R178). -/
def lowBitFlag (vx : Byte) : Bool := vx.getLsbD 0

/-- Bit 7 before a shift left (R180). -/
def highBitFlag (vx : Byte) : Bool := vx.getLsbD 7

end Sys2Proof.Machine
end

