-- ==== Sys2Proof/Machine/Operands.lean ====
section
/-! DEFINITION. The operand forms beside a register's value: immediates and addresses (30_encoding.md R102), the data
address `I + k` (42_index_memory.md R216), the keys (44_timers_input.md R278) and the random byte (41_register_alu.md
R181). -/

namespace Sys2Proof.Machine

/-- A 12-bit address, zero-extended to 16 bits: `zext_16(nnn)` (30_encoding.md R102). -/
def zext16 (nnn : BitVec 12) : Word := nnn.setWidth 16

/-- `zext_16(nnn) + v0`: at most 0x10FE, so nothing is cut off (40_step_and_control.md R137). -/
def offsetTarget (nnn : BitVec 12) (v0 : Byte) : Word := BitVec.ofNat 16 (nnn.toNat + v0.toNat)

/-- The base of every access through I: all 16 bits, exact, no mask (42_index_memory.md R216; 20_memory.md R72). -/
def State.dataAddr (s : State) : Nat := s.i.toNat

/-- `FONT_BASE + vx * 5`, the address of the glyph of digit `vx`; `vx` is not masked (42_index_memory.md R212, D12). -/
def glyphAddr (vx : Byte) : Word := BitVec.ofNat 16 (fontBaseAddr + vx.toNat * 5)

/-- `pressed(v)`: key `v` is down, and false for a byte that names no key (44_timers_input.md R278). -/
def State.pressed (s : State) (b : Byte) : Bool := decide (b.toNat ≤ 0x0F) && s.keys.getLsbD b.toNat

/-- `draw_rng()`: the byte on the `rng` input now (00_scope.md R15). Log 3. -/
def State.rngInput (s : State) : Byte := Config.rngByte s.rngDraws

/-- After a draw the next byte of the `rng` input is a new one (00_scope.md R15). -/
def State.drawn (s : State) : State := { s with rngDraws := s.rngDraws + 1 }

/-- The decimal digits of a byte, hundreds first (42_index_memory.md R213). -/
def decimalDigits (vx : Byte) : List Byte :=
  [BitVec.ofNat 8 (vx.toNat / 100), BitVec.ofNat 8 (vx.toNat / 10 % 10), BitVec.ofNat 8 (vx.toNat % 10)]

end Sys2Proof.Machine
end

