-- ==== Sys2Proof/Machine/Alu.lean ====
section
/-! DEFINITION. Register loads, arithmetic and logic (41_register_alu.md). Operands are read before the first write;
8-bit arithmetic truncates modulo 256 (R182). -/

namespace Sys2Proof.Machine

/-- R170. -/
def execLdVxKk (x : Reg) (kk : Byte) (s : State) : Result := .next (s.setV x kk)

/-- R171: modulo 256, no flag. -/
def execAddVxKk (x : Reg) (kk : Byte) (s : State) : Result := .next (s.setV x (s.getV x + kk))

/-- R172. -/
def execLdVxVy (x y : Reg) (s : State) : Result := .next (s.setV x (s.getV y))

/-- R173: no flag. -/
def execOr (x y : Reg) (s : State) : Result := .next (s.setV x (s.getV x ||| s.getV y))

/-- R174: no flag. -/
def execAnd (x y : Reg) (s : State) : Result := .next (s.setV x (s.getV x &&& s.getV y))

/-- R175: no flag. -/
def execXor (x y : Reg) (s : State) : Result := .next (s.setV x (s.getV x ^^^ s.getV y))

/-- R176: VF is the carry. -/
def execAddVxVy (x y : Reg) (s : State) : Result :=
  .next (s.setResult x (s.getV x + s.getV y) (carryFlag (s.getV x) (s.getV y)))

/-- R177: VF is 1 exactly when Vx > Vy. -/
def execSub (x y : Reg) (s : State) : Result :=
  .next (s.setResult x (s.getV x - s.getV y) (greaterFlag (s.getV x) (s.getV y)))

/-- R178: the source is Vx; VF is the bit shifted out. -/
def execShr (x : Reg) (s : State) : Result := .next (s.setResult x (s.getV x >>> 1) (lowBitFlag (s.getV x)))

/-- R179: VF is 1 exactly when Vy > Vx. -/
def execSubn (x y : Reg) (s : State) : Result :=
  .next (s.setResult x (s.getV y - s.getV x) (greaterFlag (s.getV y) (s.getV x)))

/-- R180: the source is Vx; VF is the bit shifted out. -/
def execShl (x : Reg) (s : State) : Result := .next (s.setResult x (s.getV x <<< 1) (highBitFlag (s.getV x)))

/-- R181: one byte is drawn and masked with kk. -/
def execRnd (x : Reg) (kk : Byte) (s : State) : Result := .next (s.drawn.setV x (s.rngInput &&& kk))

end Sys2Proof.Machine
end

