-- ==== Sys2Proof/Machine/Control.lean ====
section
/-! DEFINITION. The sentinel, unknown words and the control transfers (40_step_and_control.md). PC already holds the
fetch address plus 2 when a meaning begins. -/

namespace Sys2Proof.Machine

/-- R133: no effect; under `Hold` PC goes back to the fetch address. -/
def execZero (s : State) : Result :=
  match s.zeroWordPolicy with
  | .advance => .next s
  | .hold => .next { s with pc := s.fetchAddr }

/-- R134: pop the stack into PC. -/
def execRet (s : State) : Result := popIntoPc s

/-- R135: push PC, the address after the CALL, and go to nnn. -/
def execCall (nnn : BitVec 12) (s : State) : Result := pushAndJump (zext16 nnn) s

/-- R136: go to nnn. -/
def execJp (nnn : BitVec 12) (s : State) : Result := .next { s with pc := zext16 nnn }

/-- R137: go to nnn + V0. -/
def execJpV0Nnn (nnn : BitVec 12) (s : State) : Result := .next { s with pc := offsetTarget nnn (s.getV regV0) }

/-- R138: in strict mode the fatal error UnknownOpcode, in lenient mode a diagnostic and nothing else. -/
def execUnknown (op : Word) (s : State) : Result :=
  if s.strictUnknown then raise (.unknownOpcode op s.fetchAddr) s else .next (s.emitDiag op s.fetchAddr)

/-- R140: skip if Vx = kk. -/
def execSeVxKk (x : Reg) (kk : Byte) (s : State) : Result := .next (s.skipIf (s.getV x == kk))

/-- R141: skip if Vx differs from kk. -/
def execSneVxKk (x : Reg) (kk : Byte) (s : State) : Result := .next (s.skipIf (s.getV x != kk))

/-- R142: skip if Vx = Vy. -/
def execSeVxVy (x y : Reg) (s : State) : Result := .next (s.skipIf (s.getV x == s.getV y))

/-- R143: skip if Vx differs from Vy. -/
def execSneVxVy (x y : Reg) (s : State) : Result := .next (s.skipIf (s.getV x != s.getV y))

end Sys2Proof.Machine
end

