-- ==== Sys2Proof/Machine/Display.lean ====
section
/-! DEFINITION. The framebuffer's operations and the display instructions (43_display.md). -/

namespace Sys2Proof.Machine

/-- `FB[x][y]` (10_state.md R42). -/
def Framebuffer.pixel (fb : Framebuffer) (x : Fin 64) (y : Fin 32) : Bool := fb[y.val].getLsbD x.val

/-- A row with its pixel `x` made `b`. -/
def rowSetPixel (row : BitVec 64) (x : Fin 64) (b : Bool) : BitVec 64 :=
  if b then row ||| BitVec.twoPow 64 x.val else row &&& ~~~ BitVec.twoPow 64 x.val

/-- `FB[x][y] <- b`. -/
def Framebuffer.setPixel (fb : Framebuffer) (x : Fin 64) (y : Fin 32) (b : Bool) : Framebuffer :=
  fb.set y.val (rowSetPixel fb[y.val] x b)

/-- `FB_Clear()` (R241). -/
def Framebuffer.cleared : Framebuffer := Vector.replicate 32 0

/-- A column or a row, wrapped (10_state.md R42; R242). -/
def wrapX (k : Nat) : Fin 64 := ⟨k % 64, Nat.mod_lt _ (by decide)⟩
def wrapY (k : Nat) : Fin 32 := ⟨k % 32, Nat.mod_lt _ (by decide)⟩

/-- Bit `b` of a sprite byte, counted from the left: byte bit 7 - b (00_scope.md R10). -/
def spriteBit (byte : Byte) (b : Nat) : Bool := byte.getLsbD (7 - b)

/-- One pixel of the draw: `FB[nx][ny] <- old ^ bit`, and the collision flag is set when a set pixel is erased (R242). -/
def plot (acc : Framebuffer × Bool) (nx : Fin 64) (ny : Fin 32) (bit : Bool) : Framebuffer × Bool :=
  let old := acc.1.pixel nx ny
  (acc.1.setPixel nx ny (old ^^ bit), acc.2 || (old && bit))

/-- One sprite row: bits 0..7 from the left (R242). -/
def drawRow (x8 : Nat) (ny : Fin 32) (byte : Byte) (acc : Framebuffer × Bool) : Framebuffer × Bool :=
  (List.range 8).foldl (fun a b => plot a (wrapX (x8 + b)) ny (spriteBit byte b)) acc

/-- The sprite rows from row `r` on (R242). -/
def drawRows (x8 y8 : Nat) : Nat → List Byte → Framebuffer × Bool → Framebuffer × Bool
  | _, [], acc => acc
  | r, byte :: rest, acc => drawRows x8 y8 (r + 1) rest (drawRow x8 (wrapY (y8 + r)) byte acc)

/-- `FB_Draw(x8, y8, sprite) -> col` (R242): the new framebuffer and the collision flag. -/
def Framebuffer.draw (fb : Framebuffer) (x8 y8 : Byte) (sprite : List Byte) : Framebuffer × Bool :=
  drawRows x8.toNat y8.toNat 0 sprite (fb, false)

/-- R240. -/
def execCls (s : State) : Result := .next { s with fb := Framebuffer.cleared }

/-- The sprite `Dxyn` reads: n bytes from I up (R243). -/
def State.spriteAt (s : State) (n : Fin 16) : List Byte := s.mem.readBytes s.dataAddr n.val

/-- R243: the range of the sprite first (none for n = 0, D16), then the draw, then VF, always written. -/
def execDrw (x y : Reg) (n : Fin 16) (s : State) : Result :=
  let drawn := s.fb.draw (s.getV x) (s.getV y) (s.spriteAt n)
  withRange s.dataAddr n.val s ({ s with fb := drawn.1 }.setFlag drawn.2)

end Sys2Proof.Machine
end

