-- ==== Sys2Proof/Machine/Index.lean ====
section
/-! DEFINITION. The index register and the memory transfers (42_index_memory.md). No instruction here writes VF as a
flag; the transfers leave I unchanged (D15). -/

namespace Sys2Proof.Machine

/-- R210. -/
def execLdINnn (nnn : BitVec 12) (s : State) : Result := .next { s with i := zext16 nnn }

/-- R211: modulo 2^16, never masked to 12 bits. -/
def execAddIVx (x : Reg) (s : State) : Result := .next { s with i := s.i + (s.getV x).setWidth 16 }

/-- R212. -/
def execLdFVx (x : Reg) (s : State) : Result := .next { s with i := glyphAddr (s.getV x) }

/-- R213: hundreds, tens and ones at I, I+1, I+2. -/
def execLdBVx (x : Reg) (s : State) : Result :=
  withRange s.dataAddr 3 s { s with mem := s.mem.writeBytes s.dataAddr (decimalDigits (s.getV x)) }

/-- R214: V0..Vx to I..I+x. -/
def execLdMemVx (x : Reg) (s : State) : Result :=
  withRange s.dataAddr (x.val + 1) s { s with mem := s.mem.writeBytes s.dataAddr (s.regsUpTo x) }

/-- R215: V0..Vx from I..I+x. -/
def execLdVxMem (x : Reg) (s : State) : Result :=
  withRange s.dataAddr (x.val + 1) s (s.setRegs (s.mem.readBytes s.dataAddr (x.val + 1)))

end Sys2Proof.Machine
end

