-- ==== Sys2Proof/Machine/Input.lean ====
section
/-! DEFINITION. The key, timer and wait instructions (44_timers_input.md). -/

namespace Sys2Proof.Machine

/-- R270: skip if key Vx is down. -/
def execSkp (x : Reg) (s : State) : Result := .next (s.skipIf (s.pressed (s.getV x)))

/-- R271: skip if key Vx is not down. -/
def execSknp (x : Reg) (s : State) : Result := .next (s.skipIf (!s.pressed (s.getV x)))

/-- R272. -/
def execLdVxDt (x : Reg) (s : State) : Result := .next (s.setV x s.dt)

/-- R273. -/
def execLdDtVx (x : Reg) (s : State) : Result := .next { s with dt := s.getV x }

/-- R274. -/
def execLdStVx (x : Reg) (s : State) : Result := .next { s with st := s.getV x }

/-- R275: wait for a key; Vx is written when a new press comes (R276). -/
def execLdVxK (x : Reg) (s : State) : Result := .next { s with mode := .waiting x }

end Sys2Proof.Machine
end

