-- ==== Sys2Proof/Machine/Fetch.lean ====
section
/-! DEFINITION. One step of the engine: fetch, decode, execute (40_step_and_control.md R130 to R132). -/

namespace Sys2Proof.Machine

/-- The word at an address, high byte first (20_memory.md R74). -/
def Memory.fetchWord (m : Memory) (a : Nat) : Word := wordOfBytes (m.read a) (m.read (a + 1))

/-- R131: the word at PC, or the fetch fault of the first of its two addresses above 0xFFF. -/
def fetch (s : State) : Except FatalError Word :=
  if topAddr < s.pc.toNat then .error (.addressOutOfRange s.pc.toNat s.pc)
  else if topAddr < s.pc.toNat + 1 then .error (.addressOutOfRange (s.pc.toNat + 1) s.pc)
  else .ok (s.mem.fetchWord s.pc.toNat)

/-- `PC <- (fa + 2) mod 2^16` (R131). -/
def State.advancePc (s : State) : State := { s with pc := s.pc + 2 }

/-- A step has an effect only when the tasks are enabled and the mode is Running (R130). -/
def State.canStep (s : State) : Bool := s.enabled && s.mode == .running

/-- One `step` event: nothing when it can have no effect; else fetch (a fetch fault leaves PC), then run the decoded
instruction with PC advanced. -/
def engineStep (s : State) : Result :=
  if s.canStep then
    match fetch s with
    | .error e => raise e s
    | .ok op => exec (decodeWord op) s.advancePc
  else .next s

/-- `s` made ready to fetch `op` at the next step event: running, enabled, PC inside the memory, `op` stored at PC, and
a step event first in the schedule. -/
def State.placeWord (s : State) (op : Word) : State :=
  let a : Word := if s.pc.toNat < topAddr then s.pc else 0x0200
  { s with
    pc := a
    mem := (s.mem.write a.toNat (highByte op)).write (a.toNat + 1) (lowByte op)
    mode := .running
    enabled := true
    schedule := match s.schedule with
      | [] => []
      | .step :: rest => .step :: rest
      | e :: rest => .step :: e :: rest }

end Sys2Proof.Machine
end

