-- ==== Sys2Proof/Machine/Events.lean ====
section
/-! DEFINITION. The events of the block other than a step, and the next event of a schedule (44_timers_input.md R276 to
R284; 60_exceptions.md R320, R321; 70_reset_and_hazards.md R340). -/

namespace Sys2Proof.Machine

/-- `if DT > 0: DT <- DT - 1` (R280). -/
def countDown (b : Byte) : Byte := if 0 < b.toNat then b - 1 else b

/-- R280: the delay tick, in every mode while enabled (R283). -/
def tickDt (s : State) : State := if s.enabled then { s with dt := countDown s.dt } else s

/-- R281: the sound tick. -/
def tickSt (s : State) : State := if s.enabled then { s with st := countDown s.st } else s

/-- Bit `id` of the Input Surface. -/
def keyMask (id : KeyId) : BitVec 16 := BitVec.twoPow 16 id.val

/-- A key id as a byte: `zext_8` (R276). -/
def keyByte (id : KeyId) : Byte := BitVec.ofNat 8 id.val

/-- The end of a wait: a key that was not down is pressed while the block waits and runs (R276, D14, D32). -/
def endWait (id : KeyId) (wasDown : Bool) (s : State) : State :=
  match s.mode with
  | .waiting x => if s.enabled && !wasDown then { s.setV x (keyByte id) with mode := .running } else s
  | .running => s
  | .faulted _ => s

/-- R276: the key joins the Input Surface, and a new press ends a wait. -/
def keyDown (id : KeyId) (s : State) : State :=
  endWait id (s.keys.getLsbD id.val) { s with keys := s.keys ||| keyMask id }

/-- R277: the key leaves the Input Surface. -/
def keyUp (id : KeyId) (s : State) : State := { s with keys := s.keys &&& ~~~ keyMask id }

/-- R340: a ROM that does not fit is refused and nothing happens (R84, D21); else every item of R48 is set, `enabled` and
the Input Surface are left alone, and so are the parameters and the model's own fields (log 20). -/
def resetWith (rom : List Byte) (s : State) : State :=
  if romMax < rom.length then s
  else
    { s with
      v := Vector.replicate 16 0
      i := 0
      dt := 0
      st := 0
      pc := 0x0200
      stack := []
      fb := Framebuffer.cleared
      mem := Memory.writeBytes [] romBase rom
      mode := .running }

/-- R321. -/
def stop (s : State) : State := { s with enabled := false }
def start (s : State) : State := { s with enabled := true }

/-- One event, applied whole (20_memory.md R80; R320). -/
def applyEvent (e : Event) (s : State) : Result :=
  match e with
  | .step => engineStep s
  | .tickDt => .next (tickDt s)
  | .tickSt => .next (tickSt s)
  | .keyDown id => .next (keyDown id s)
  | .keyUp id => .next (keyUp id s)
  | .reset rom => .next (resetWith rom s)
  | .stop => .next (stop s)
  | .start => .next (start s)

/-- The event that comes next: the first of the schedule, a step when none is listed (log 2). -/
def State.nextEvent (s : State) : Event := s.schedule.headD .step

/-- The schedule without the event that comes next. -/
def State.popEvent (s : State) : State := { s with schedule := s.schedule.tail }

end Sys2Proof.Machine
end

