-- ==== Sys2Proof/Machine/Step.lean ====
section
/-! DEFINITION. One step of the machine: the next event of the schedule, applied whole (60_exceptions.md R320). -/

namespace Sys2Proof.Machine

def step (s : State) : Host.Outcome State Fault Refusal := applyEvent s.nextEvent s.popEvent

/-- `s` with a table word stored where the next step fetches it (log 12). -/
def State.withFetchWord (s : State) (nbits w : Nat) : State := s.placeWord (BitVec.ofNat 16 (w % 2 ^ nbits))

end Sys2Proof.Machine
end

