-- ==== Sys2Proof/Machine/Outputs.lean ====
section
/-! DEFINITION. The outputs of the block as functions of its state (00_scope.md R6; 44_timers_input.md R282;
60_exceptions.md R300, R301; 40_step_and_control.md R145). -/

namespace Sys2Proof.Machine

/-- The numeric code of an error (R300). -/
def FatalError.code : FatalError → Nat
  | .stackOverflow _ => 1
  | .stackUnderflow _ => 2
  | .addressOutOfRange _ _ => 3
  | .unknownOpcode _ _ => 4

/-- The `sound` output: 1 exactly when ST > 0 (R282). -/
def State.soundOut (s : State) : Bool := decide (0 < s.st.toNat)

/-- The `waiting` output (R145). -/
def State.waitingOut (s : State) : Bool :=
  match s.mode with
  | .waiting _ => true
  | .running => false
  | .faulted _ => false

/-- The `fault` output: the error and its info, while Faulted (R301). -/
def State.faultOut (s : State) : Option FatalError :=
  match s.mode with
  | .faulted e => some e
  | .running => none
  | .waiting _ => none

/-- The `fb` output: the pixel the rendering backend reads (10_state.md R42). -/
def State.fbOut (s : State) (x : Fin 64) (y : Fin 32) : Bool := s.fb.pixel x y

/-- How a step that had an effect ended (R145). -/
inductive StepReport where
  | ok
  | diag (d : DiagEvent)
  | wait (x : Reg)
  | fault (e : FatalError)
deriving DecidableEq, Repr

/-- What the outputs show of a step that led from `s` to `t` (R145). -/
def stepReport (s t : State) : StepReport :=
  match t.mode with
  | .faulted e => .fault e
  | .waiting x => .wait x
  | .running =>
    match t.diagLog.drop s.diagLog.length with
    | [] => .ok
    | d :: _ => .diag d

end Sys2Proof.Machine
end

