-- ==== Sys2Proof/Machine/Runs.lean ====
section
/-! DEFINITION. Runs of the block: finite and infinite sequences of events, each applied whole, in any order
(60_exceptions.md R320; 44_timers_input.md R284), weak fairness (R320), and where a run ends (70_reset_and_hazards.md R350).
`step` runs the events that State.schedule lists; a run here takes its events from outside the state, so that it may be any
infinite sequence (log 2). No event reads or writes State.schedule, so that field is idle in a run. -/

namespace Sys2Proof.Machine

/-! ## Sequences of events (R320) -/

/-- A finite run: the events of a list, one after the other. -/
def applyEvents : List Event → State → Result
  | [], s => .next s
  | e :: rest, s =>
    match applyEvent e s with
    | .next t => applyEvents rest t
    | .fault f => .fault f
    | .refused r => .refused r

/-- An infinite run: `events n` is the n-th event, `states n` the state it comes in. -/
def IsRun (events : Nat → Event) (states : Nat → State) : Prop :=
  ∀ n, applyEvent (events n) (states n) = .next (states (n + 1))

/-- The events whose repetition weak fairness demands (R320): the three tasks of the block. -/
def taskEvents : List Event := [.step, .tickDt, .tickSt]

/-- Weak fairness (R320, 92_eei_decisions.md D17): if `enabled` is 1 from some point on, `step`, `tick_dt` and `tick_st` each
occur infinitely often. A premise for claims that need it; a run need not be fair. -/
def WeaklyFair (events : Nat → Event) (states : Nat → State) : Prop :=
  (∃ n, ∀ m, n ≤ m → (states m).enabled = true) → ∀ e ∈ taskEvents, ∀ n, ∃ m, n ≤ m ∧ events m = e

/-! ## What an event executes, and where a run ends (R350) -/

/-- The event is a step event that has an effect in `s` (40_step_and_control.md R130). -/
def HasEffect (e : Event) (s : State) : Prop := e = .step ∧ s.enabled = true ∧ s.mode = .running

/-- The event is a step that fetches a word which decodes to `i`. -/
def EventExecutes (e : Event) (s : State) (i : Instr) : Prop :=
  HasEffect e s ∧ s.pc.toNat ≤ 0xFFE ∧ decodeWord (s.mem.fetchWord s.pc.toNat) = i

/-- The event is a step that fetches the sentinel word 0x0000. -/
def FetchesSentinel (e : Event) (s : State) : Prop := HasEffect e s ∧ fetch s = .ok 0x0000#16

/-- The run ends at the n-th event: it is the first that fetches the sentinel, and the run has not been Faulted before it,
a reset afterwards or not (R350). Its end state is `states n`, the one just before that step. What comes after the end is
no part of it. Log 22. -/
def EndsAt (events : Nat → Event) (states : Nat → State) (n : Nat) : Prop :=
  FetchesSentinel (events n) (states n) ∧
  ∀ m, m < n → ¬ FetchesSentinel (events m) (states m) ∧ (states m).faultOut = none

/-- `t` is the end state of the run (R350). A run that no event ends has none. -/
def IsEndState (events : Nat → Event) (states : Nat → State) (t : State) : Prop :=
  ∃ n, EndsAt events states n ∧ t = states n

/-- The end of a finite run, likewise: the events of the list before the first fetch of the sentinel lead, never Faulted,
to the end state `t`. -/
def EndsFinite : List Event → State → State → Prop
  | [], _, _ => False
  | e :: rest, s, t =>
    (FetchesSentinel e s ∧ t = s) ∨
    (¬ FetchesSentinel e s ∧ s.faultOut = none ∧ ∃ u, applyEvent e s = .next u ∧ EndsFinite rest u t)

end Sys2Proof.Machine
end

