-- ==== Sys2Proof/Safety.lean ====
section
/-! DEFINITION. The terms claims use: the invariant of the state, a safe state, and what the next event of the schedule
executes. Runs and their ends are Machine/Runs.lean. -/

namespace Sys2Proof.Machine

/-- What an error's info says of the state it was raised in, which nothing but a reset changes afterwards
(60_exceptions.md R300, R301). -/
def FatalError.consistent (s : State) : FatalError → Bool
  | .stackOverflow _ => s.stack.length == 16
  | .stackUnderflow _ => s.stack.isEmpty
  | .addressOutOfRange addr _ => decide (0xFFF < addr)
  | .unknownOpcode op _ => s.strictUnknown && !knownWord op

def Mode.consistent (s : State) : Mode → Bool
  | .running => true
  | .waiting _ => true
  | .faulted e => e.consistent s

/-- The invariant: memory in its canonical form, the stack no deeper than 16 (10_state.md R41), and a Faulted mode whose
info fits the state. -/
def State.Inv (s : State) : Prop :=
  s.mem.wf = true ∧ s.stack.length ≤ 16 ∧ s.mode.consistent s = true

/-- No fatal error has occurred (60_exceptions.md R301). -/
def State.Safe (s : State) : Prop := s.faultOut = none

/-- The next event is a step event that will have an effect (40_step_and_control.md R130). -/
def State.WillExecute (s : State) : Prop := HasEffect s.nextEvent s

/-- The next event is a step that fetches the sentinel 0x0000. A run ends in the FIRST such state it comes to, if it has not
been Faulted before (70_reset_and_hazards.md R350; `EndsAt`). -/
def State.AtEnd (s : State) : Prop := FetchesSentinel s.nextEvent s

end Sys2Proof.Machine
end

