-- ==== Sys2Proof/Certificates/Slice0/Obligations.lean ====
section
/-! DEFINITION. The statements for the provers. Results are said in numbers (Nat arithmetic from the rule's own formula),
and frames as "t is s but for the named fields". `exec` runs with PC already advanced, so a rule's fetch address `fa` is
the word with s.pc = fa + 2 (40_step_and_control.md R131; log 10). Where the spec marks a clause [decision: D<n>] or
[derived], a docstring names it: that clause is the spec's own choice or inference (log 16, log 17). -/

namespace Sys2Proof.Machine

/-! ## The words the statements share -/

/-- Every register outside the list reads as before. -/
def RegsSameBut (ws : List Reg) (s t : State) : Prop := ∀ r, r ∉ ws → t.getV r = s.getV r

/-- The instruction runs, Vx becomes `value`, every other register and every other field is unchanged. -/
def PutsInVx (i : Instr) (s : State) (x : Reg) (value : Nat) : Prop :=
  ∃ t, exec i s = .next t ∧ (t.getV x).toNat = value ∧ RegsSameBut [x] s t ∧ t = { s with v := t.v }

/-- The instruction runs, VF becomes `flag` whatever x is, Vx becomes `value` when x is not F, every other register and
every other field is unchanged (10_state.md R31, R32). -/
def PutsInVxAndFlag (i : Instr) (s : State) (x : Reg) (value flag : Nat) : Prop :=
  ∃ t, exec i s = .next t ∧ (t.getV regVF).toNat = flag ∧ (x ≠ regVF → (t.getV x).toNat = value) ∧
    RegsSameBut [x, regVF] s t ∧ t = { s with v := t.v }

/-- The instruction runs, I becomes `value`, every other field is unchanged (VF among the registers). -/
def PutsInI (i : Instr) (s : State) (value : Nat) : Prop :=
  ∃ t, exec i s = .next t ∧ t.i.toNat = value ∧ t = { s with i := t.i }

/-- The instruction runs, PC moves 2 more bytes modulo 2^16 exactly when `c`, nothing else changes (R139). -/
def SkipsExactlyWhen (i : Instr) (s : State) (c : Prop) : Prop :=
  ∃ t, exec i s = .next t ∧ (c → t.pc.toNat = (s.pc.toNat + 2) % 65536) ∧ (¬ c → t.pc = s.pc) ∧
    t = { s with pc := t.pc }

/-- `bad` is the first address from `base` up that lies above 0xFFF (00_scope.md R13). -/
def FirstAddressAbove (base bad : Nat) : Prop :=
  base ≤ bad ∧ 0xFFF < bad ∧ ∀ a, base ≤ a → 0xFFF < a → bad ≤ a

/-- The instruction raises AddressOutOfRange with the first address above 0xFFF and its fetch address, and changes
nothing but the mode (60_exceptions.md R300, R301). -/
def FaultsOutOfRange (i : Instr) (s : State) : Prop :=
  ∀ fa bad, s.pc = fa + 2 → FirstAddressAbove s.i.toNat bad →
    exec i s = .next { s with mode := .faulted (.addressOutOfRange bad fa) }

/-- Sprite bit `b` of row `r` is 1 and lands on pixel (px, py), for a sprite of `n` bytes at I drawn at (vx, vy)
(43_display.md R242). -/
def SpriteCovers (s : State) (vx vy : Byte) (n : Nat) (px : Fin 64) (py : Fin 32) : Prop :=
  ∃ r b : Nat, r < n ∧ b < 8 ∧ px.val = (vx.toNat + b) % 64 ∧ py.val = (vy.toNat + r) % 32 ∧
    (s.mem.read (s.i.toNat + r)).getLsbD (7 - b) = true

/-- The next event is a step that fetches inside the memory and decodes to `i`. -/
def Executes (s : State) (i : Instr) : Prop := EventExecutes s.nextEvent s i

/-- The byte at address `a` of memory `m` is `b` for every fetch that reads it: as the upper half of the word at `a`, when
that fetch is in range, and as the lower half of the word at the address before (20_memory.md R74). -/
def FetchReads (m : Memory) (a b : Nat) : Prop :=
  ∀ u : State, u.mem = m →
    (u.pc.toNat = a → a ≤ 0xFFE → ∃ op, fetch u = .ok op ∧ op.toNat / 256 = b) ∧
    (u.pc.toNat + 1 = a → ∃ op, fetch u = .ok op ∧ op.toNat % 256 = b)

/-- A reset event. -/
def Event.IsReset (e : Event) : Prop := ∃ rom, e = .reset rom

/-- The destination registers of an instruction (10_state.md R33, the column "V writes"). -/
def destinations : Instr → List Reg
  | .ldVxKk x _ | .addVxKk x _ | .ldVxVy x _ | .orVxVy x _ | .andVxVy x _ | .xorVxVy x _ | .rnd x _ | .ldVxDt x => [x]
  | .addVxVy x _ | .subVxVy x _ | .shr x _ | .subnVxVy x _ | .shl x _ => [x, regVF]
  | .drw _ _ _ => [regVF]
  | .ldVxMem x => (List.finRange 16).filter (· ≤ x)
  | .zero | .cls | .ret | .jp _ | .call _ | .seVxKk _ _ | .sneVxKk _ _ | .seVxVy _ _ | .sneVxVy _ _ | .ldINnn _
  | .jpV0Nnn _ | .skp _ | .sknp _ | .ldVxK _ | .ldDtVx _ | .ldStVx _ | .addIVx _ | .ldFVx _ | .ldBVx _ | .ldMemVx _
  | .unknown _ => []

/-- The registers an instruction reads (10_state.md R33, the column "V reads"). -/
def sources : Instr → List Reg
  | .seVxKk x _ | .sneVxKk x _ | .addVxKk x _ | .shr x _ | .shl x _ | .skp x | .sknp x | .ldDtVx x | .ldStVx x
  | .addIVx x | .ldFVx x | .ldBVx x => [x]
  | .seVxVy x y | .sneVxVy x y | .orVxVy x y | .andVxVy x y | .xorVxVy x y | .addVxVy x y | .subVxVy x y
  | .subnVxVy x y | .drw x y _ => [x, y]
  | .ldVxVy _ y => [y]
  | .jpV0Nnn _ => [regV0]
  | .ldMemVx x => (List.finRange 16).filter (· ≤ x)
  | .zero | .cls | .ret | .jp _ | .call _ | .ldVxKk _ _ | .ldINnn _ | .rnd _ _ | .ldVxDt _ | .ldVxK _ | .ldVxMem _
  | .unknown _ => []

/-- The instructions that define a flag (10_state.md R31). -/
def DefinesFlag : Instr → Prop
  | .addVxVy _ _ | .subVxVy _ _ | .shr _ _ | .subnVxVy _ _ | .shl _ _ | .drw _ _ _ => True
  | .zero | .cls | .ret | .jp _ | .call _ | .seVxKk _ _ | .sneVxKk _ _ | .seVxVy _ _ | .sneVxVy _ _ | .ldINnn _
  | .jpV0Nnn _ | .skp _ | .sknp _ | .ldVxK _ | .ldDtVx _ | .ldStVx _ | .addIVx _ | .ldFVx _ | .ldBVx _ | .ldMemVx _
  | .unknown _ | .ldVxKk _ _ | .addVxKk _ _ | .ldVxVy _ _ | .orVxVy _ _ | .andVxVy _ _ | .xorVxVy _ _ | .rnd _ _
  | .ldVxDt _ | .ldVxMem _ => False

/-- PC after an instruction fetched at `fa` that raised no error, as a number (40_step_and_control.md R144). -/
def PcAfter (fa : Word) (s : State) (i : Instr) (p : Nat) : Prop :=
  let next := (fa.toNat + 2) % 65536
  let skip := (fa.toNat + 4) % 65536
  match i with
  | .zero => (s.zeroWordPolicy = .advance → p = next) ∧ (s.zeroWordPolicy = .hold → p = fa.toNat)
  | .seVxKk x kk => (s.getV x = kk → p = skip) ∧ (s.getV x ≠ kk → p = next)
  | .sneVxKk x kk => (s.getV x ≠ kk → p = skip) ∧ (s.getV x = kk → p = next)
  | .seVxVy x y => (s.getV x = s.getV y → p = skip) ∧ (s.getV x ≠ s.getV y → p = next)
  | .sneVxVy x y => (s.getV x ≠ s.getV y → p = skip) ∧ (s.getV x = s.getV y → p = next)
  | .skp x =>
    (((s.getV x).toNat ≤ 15 ∧ s.keys.getLsbD (s.getV x).toNat = true) → p = skip) ∧
    (¬ ((s.getV x).toNat ≤ 15 ∧ s.keys.getLsbD (s.getV x).toNat = true) → p = next)
  | .sknp x =>
    (¬ ((s.getV x).toNat ≤ 15 ∧ s.keys.getLsbD (s.getV x).toNat = true) → p = skip) ∧
    (((s.getV x).toNat ≤ 15 ∧ s.keys.getLsbD (s.getV x).toNat = true) → p = next)
  | .jp nnn => p = nnn.toNat
  | .call nnn => p = nnn.toNat
  | .ret => ∀ rest top, s.stack = rest ++ [top] → p = top.toNat
  | .jpV0Nnn nnn => p = nnn.toNat + (s.getV 0).toNat
  | .cls | .ldVxKk _ _ | .addVxKk _ _ | .ldVxVy _ _ | .orVxVy _ _ | .andVxVy _ _ | .xorVxVy _ _ | .addVxVy _ _
  | .subVxVy _ _ | .shr _ _ | .subnVxVy _ _ | .shl _ _ | .ldINnn _ | .rnd _ _ | .drw _ _ _ | .ldVxDt _ | .ldVxK _
  | .ldDtVx _ | .ldStVx _ | .addIVx _ | .ldFVx _ | .ldBVx _ | .ldMemVx _ | .ldVxMem _ | .unknown _ => p = next

end Sys2Proof.Machine

open Sys2Proof Sys2Proof.Machine

/-! ## Encoding -/

/-- 30_encoding.md R104, 20_memory.md R74: the bytes of every well-formed instruction decode to it, whatever follows. -/
def Obligations.DecodingTheEncodingGivesTheInstruction : Prop :=
  ∀ (i : Instr) (rest : List Byte), i.wellFormed = true → decode (encodeBytes i ++ rest) = .ok (i, rest)

/-- 30_encoding.md R106, which the spec derives from R104 and R105: every word has one meaning: it decodes to a
well-formed instruction whose encoding it is. That the ignored nibble of 8xy6 and 8xyE comes back is the model's choice
to keep it in the syntax (log 15). -/
def Obligations.EveryWordIsTheEncodingOfItsInstruction : Prop :=
  ∀ op : Word, (decodeWord op).wellFormed = true ∧ encode (decodeWord op) = op

/-- 30_encoding.md R103, with every fixed nibble matching by the spec's decision D4: at most one row of R104 matches a
word; decoding selects that row, and a word of no row is unknown. -/
def Obligations.DecodingSelectsTheOneMatchingRow : Prop :=
  ∀ op : Word,
    (∀ r₁ ∈ opcodeRows, ∀ r₂ ∈ opcodeRows, r₁.matchesWord op = true → r₂.matchesWord op = true → r₁ = r₂) ∧
    (∀ r ∈ opcodeRows, r.matchesWord op = true → (decodeWord op).mnemonic = r.mnemonic) ∧
    ((∀ r ∈ opcodeRows, r.matchesWord op = false) → decodeWord op = .unknown op)

/-- 30_encoding.md R105, which the spec derives from R104 and its decision D4: the unknown words, by the nibbles and the
low byte of the word. -/
def Obligations.UnknownWordsAreThoseOfTheTable : Prop :=
  ∀ op : Word, decodeWord op = .unknown op ↔
    let family := op.toNat / 4096
    let n := op.toNat % 16
    let kk := op.toNat % 256
    (family = 0 ∧ op.toNat ≠ 0x0000 ∧ op.toNat ≠ 0x00E0 ∧ op.toNat ≠ 0x00EE) ∨
    (family = 5 ∧ n ≠ 0) ∨
    (family = 8 ∧ n ∈ [8, 9, 0xA, 0xB, 0xC, 0xD, 0xF]) ∨
    (family = 9 ∧ n ≠ 0) ∨
    (family = 0xE ∧ kk ∉ [0x9E, 0xA1]) ∨
    (family = 0xF ∧ kk ∉ [0x07, 0x0A, 0x15, 0x18, 0x1E, 0x29, 0x33, 0x55, 0x65])

/-- 30_encoding.md R104: words written out by hand, one at least of each family 0 to F, and one unknown word, 0x5121,
which is unknown by R105 and the spec's decision D4 (log 16). A sanity statement. -/
def Obligations.SampleWordsDecodeAsTheOpcodeMapSays : Prop :=
  decodeWord 0x00EE#16 = .ret ∧ decodeWord 0x1ABC#16 = .jp 0xABC#12 ∧ decodeWord 0x2210#16 = .call 0x210#12 ∧
  decodeWord 0x34FC#16 = .seVxKk 4 0xFC#8 ∧ decodeWord 0x4ACD#16 = .sneVxKk 10 0xCD#8 ∧
  decodeWord 0x5120#16 = .seVxVy 1 2 ∧ decodeWord 0x6ACD#16 = .ldVxKk 10 0xCD#8 ∧
  decodeWord 0x7ACD#16 = .addVxKk 10 0xCD#8 ∧ decodeWord 0x85E6#16 = .shr 5 14 ∧ decodeWord 0x9120#16 = .sneVxVy 1 2 ∧
  decodeWord 0xAABC#16 = .ldINnn 0xABC#12 ∧ decodeWord 0xBFFF#16 = .jpV0Nnn 0xFFF#12 ∧
  decodeWord 0xC30F#16 = .rnd 3 0x0F#8 ∧ decodeWord 0xD012#16 = .drw 0 1 2 ∧ decodeWord 0xE0A1#16 = .sknp 0 ∧
  decodeWord 0xF533#16 = .ldBVx 5 ∧ decodeWord 0x5121#16 = .unknown 0x5121#16

/-! ## The step cycle -/

/-- 40_step_and_control.md R130, R131: a step event has an effect only when enabled and Running; then it fetches the two
bytes at PC, high byte first, advances PC and runs the decoded instruction once, or raises the fetch fault with PC left
alone. Rests on the spec's decisions D9, D11 and D24, and on the model's schedule (log 2). -/
def Obligations.StepFetchesAdvancesAndRunsOnce : Prop :=
  ∀ s : State, s.nextEvent = .step →
    ((s.enabled = false ∨ s.mode ≠ .running) → step s = .next { s with schedule := s.schedule.tail }) ∧
    (s.enabled = true → s.mode = .running →
      (0xFFF < s.pc.toNat → step s = .next { s with
          schedule := s.schedule.tail, mode := .faulted (.addressOutOfRange s.pc.toNat s.pc) }) ∧
      (s.pc.toNat = 0xFFF → step s = .next { s with
          schedule := s.schedule.tail, mode := .faulted (.addressOutOfRange (s.pc.toNat + 1) s.pc) }) ∧
      (s.pc.toNat < 0xFFF → ∃ op fa2 : Word,
          op.toNat = (s.mem.read s.pc.toNat).toNat * 256 + (s.mem.read (s.pc.toNat + 1)).toNat ∧
          fa2.toNat = (s.pc.toNat + 2) % 65536 ∧
          step s = exec (decodeWord op) { s with schedule := s.schedule.tail, pc := fa2 }))

/-- 40_step_and_control.md R132 with 20_memory.md R74: where the two bytes at PC are those of a well-formed instruction,
the step runs that instruction, with the event consumed (log 2) and PC advanced by 2. -/
def Obligations.StepRunsTheInstructionAtPc : Prop :=
  ∀ (s : State) (i : Instr), s.WillExecute → s.pc.toNat ≤ 0xFFE → i.wellFormed = true →
    encodeBytes i = [s.mem.read s.pc.toNat, s.mem.read (s.pc.toNat + 1)] →
    step s = exec i { s with schedule := s.schedule.tail, pc := s.pc + 2 }

/-- 60_exceptions.md R320: no step of the machine is refused or ends outside its states (fatal errors are states in mode
Faulted, log 1), so every sequence of events, finite or infinite, in any order, is a run: the machine makes a finite one
when the schedule lists it (log 2), and an infinite one is, from each state, exactly one sequence of states, whose
finite parts are finite runs. -/
def Obligations.EveryStepAnswersANextState : Prop :=
  (∀ s : State, ∃ t, step s = .next t) ∧
  (∀ (es rest : List Event) (s : State), ∃ t, applyEvents es s = .next t ∧
    Sys2Proof.core.run es.length { s with schedule := es ++ rest } = .next { t with schedule := rest }) ∧
  (∀ (events : Nat → Event) (s : State), ∃ states : Nat → State, states 0 = s ∧ IsRun events states ∧
    (∀ k, applyEvents ((List.range k).map events) s = .next (states k)) ∧
    ∀ others : Nat → State, others 0 = s → IsRun events others → others = states)

/-- 40_step_and_control.md R145: every step that has an effect ends as Ok, Diag, Wait or Fault, and what the outputs
then show is what happened. The diag output is the model's diagLog (log 9). -/
def Obligations.StepEndsInTheReportedOutcome : Prop :=
  ∀ s t : State, s.WillExecute → step s = .next t →
    match stepReport s t with
    | .ok => t.mode = .running ∧ t.diagLog = s.diagLog
    | .diag d => t.mode = .running ∧ s.strictUnknown = false ∧ Executes s (.unknown d.word) ∧ d.addr = s.pc ∧
        t.diagLog = s.diagLog ++ [d]
    | .wait x => t.mode = .waiting x ∧ t.waitingOut = true ∧ Executes s (.ldVxK x) ∧ t.diagLog = s.diagLog
    | .fault e => t.mode = .faulted e ∧ t.faultOut = some e ∧ t.diagLog = s.diagLog

/-- 40_step_and_control.md R144, which the spec derives from the instructions' rules: PC after a step, for every
instruction. -/
def Obligations.PcAfterEveryInstruction : Prop :=
  ∀ s t : State, s.WillExecute → step s = .next t →
    (0xFFE < s.pc.toNat → t.faultOut ≠ none ∧ t.pc = s.pc) ∧
    (s.pc.toNat ≤ 0xFFE →
      (t.faultOut ≠ none → t.pc.toNat = (s.pc.toNat + 2) % 65536) ∧
      (t.faultOut = none → PcAfter s.pc s (decodeWord (s.mem.fetchWord s.pc.toNat)) t.pc.toNat))

/-! ## Control transfers (40_step_and_control.md) -/

/-- R133, with both values of ZERO_WORD_POLICY of the spec's decision D2 (log 7): the sentinel is a no-op; under Hold PC
goes back to the fetch address. -/
def Obligations.ZeroWordIsANoOp : Prop :=
  ∀ s : State,
    (s.zeroWordPolicy = .advance → exec .zero s = .next s) ∧
    (s.zeroWordPolicy = .hold → ∀ fa, s.pc = fa + 2 → exec .zero s = .next { s with pc := fa })

/-- R134: RET pops the top of the stack into PC; on an empty stack it raises StackUnderflow. -/
def Obligations.RetPopsTheStackIntoPc : Prop :=
  ∀ s : State,
    (∀ rest top, s.stack = rest ++ [top] → exec .ret s = .next { s with pc := top, stack := rest }) ∧
    (s.stack = [] → ∀ fa, s.pc = fa + 2 → exec .ret s = .next { s with mode := .faulted (.stackUnderflow fa) })

/-- R135: CALL pushes PC and goes to nnn; at depth 16 it raises StackOverflow. -/
def Obligations.CallPushesPcAndJumps : Prop :=
  ∀ (nnn : BitVec 12) (s : State),
    (s.stack.length < 16 → ∃ t, exec (.call nnn) s = .next t ∧ t.stack = s.stack ++ [s.pc] ∧ t.pc.toNat = nnn.toNat ∧
      t = { s with stack := t.stack, pc := t.pc }) ∧
    (s.stack.length = 16 → ∀ fa, s.pc = fa + 2 →
      exec (.call nnn) s = .next { s with mode := .faulted (.stackOverflow fa) })

/-- R134 with R135: a RET that finds the stack a CALL left goes to the address after the CALL and restores the stack. -/
def Obligations.RetAfterCallReturns : Prop :=
  ∀ (nnn : BitVec 12) (s u : State), s.stack.length < 16 → (∃ t, exec (.call nnn) s = .next t ∧ u.stack = t.stack) →
    exec .ret u = .next { u with pc := s.pc, stack := s.stack }

/-- R136, R137, the sum not masked by the spec's decision D9: JP goes to nnn, Bnnn to nnn + V0 with nothing cut off;
nothing else changes. -/
def Obligations.JumpsSetPc : Prop :=
  ∀ (nnn : BitVec 12) (s : State),
    (∃ t, exec (.jp nnn) s = .next t ∧ t.pc.toNat = nnn.toNat ∧ t = { s with pc := t.pc }) ∧
    (∃ t, exec (.jpV0Nnn nnn) s = .next t ∧ t.pc.toNat = nnn.toNat + (s.getV 0).toNat ∧ t = { s with pc := t.pc })

/-- R138: an unknown word is a diagnostic in lenient mode and the fatal error UnknownOpcode in strict mode, with the
word and its fetch address; nothing else changes in either. Both modes of D3; the address by the spec's decision D25.
The channel is the model's diagLog (log 9). -/
def Obligations.UnknownWordIsDiagnosedOrFatal : Prop :=
  ∀ (op fa : Word) (s : State), s.pc = fa + 2 →
    (s.strictUnknown = false →
      exec (.unknown op) s = .next { s with diagLog := s.diagLog ++ [{ word := op, addr := fa }] }) ∧
    (s.strictUnknown = true → exec (.unknown op) s = .next { s with mode := .faulted (.unknownOpcode op fa) })

/-- R139 to R143: the register skips, by exact equality. -/
def Obligations.RegisterSkips : Prop :=
  ∀ (x y : Reg) (kk : Byte) (s : State),
    SkipsExactlyWhen (.seVxKk x kk) s (s.getV x = kk) ∧
    SkipsExactlyWhen (.sneVxKk x kk) s (s.getV x ≠ kk) ∧
    SkipsExactlyWhen (.seVxVy x y) s (s.getV x = s.getV y) ∧
    SkipsExactlyWhen (.sneVxVy x y) s (s.getV x ≠ s.getV y)

/-! ## Registers, arithmetic and logic (41_register_alu.md) -/

/-- R170, R172: the loads of a register from an immediate and from a register. -/
def Obligations.RegisterLoads : Prop :=
  ∀ (x y : Reg) (kk : Byte) (s : State),
    PutsInVx (.ldVxKk x kk) s x kk.toNat ∧ PutsInVx (.ldVxVy x y) s x (s.getV y).toNat

/-- R171: the sum with the immediate modulo 256; VF is unchanged unless it is the destination. -/
def Obligations.AddImmediateWrapsWithoutFlag : Prop :=
  ∀ (x : Reg) (kk : Byte) (s : State), PutsInVx (.addVxKk x kk) s x (((s.getV x).toNat + kk.toNat) % 256)

/-- R173, R174, R175: OR, AND and XOR, with VF unchanged unless it is the destination, which the spec derives from R31.
-/
def Obligations.LogicWithoutFlag : Prop :=
  ∀ (x y : Reg) (s : State),
    PutsInVx (.orVxVy x y) s x ((s.getV x).toNat ||| (s.getV y).toNat) ∧
    PutsInVx (.andVxVy x y) s x ((s.getV x).toNat &&& (s.getV y).toNat) ∧
    PutsInVx (.xorVxVy x y) s x ((s.getV x).toNat ^^^ (s.getV y).toNat)

/-- R176: the sum modulo 256, and VF is 1 exactly when it exceeds 255; the flag last by the spec's decision D1. -/
def Obligations.AddSetsCarry : Prop :=
  ∀ (x y : Reg) (s : State),
    PutsInVxAndFlag (.addVxVy x y) s x (((s.getV x).toNat + (s.getV y).toNat) % 256)
      (if (s.getV x).toNat + (s.getV y).toNat > 255 then 1 else 0)

/-- R177, R179: the differences modulo 256, and VF is 1 exactly when the minuend is strictly greater; the flag last by
the spec's decision D1. -/
def Obligations.SubtractionsSetStrictGreater : Prop :=
  ∀ (x y : Reg) (s : State),
    PutsInVxAndFlag (.subVxVy x y) s x ((256 + (s.getV x).toNat - (s.getV y).toNat) % 256)
      (if (s.getV x).toNat > (s.getV y).toNat then 1 else 0) ∧
    PutsInVxAndFlag (.subnVxVy x y) s x ((256 + (s.getV y).toNat - (s.getV x).toNat) % 256)
      (if (s.getV y).toNat > (s.getV x).toNat then 1 else 0)

/-- R178, R180: the one-bit shifts of Vx, whatever y is, and VF is the bit shifted out, whatever x is: the flag last by
the spec's decision D1 (10_state.md R32, log 16). -/
def Obligations.ShiftsCaptureTheBitShiftedOut : Prop :=
  ∀ (x y : Reg) (s : State),
    PutsInVxAndFlag (.shr x y) s x ((s.getV x).toNat / 2) ((s.getV x).toNat % 2) ∧
    PutsInVxAndFlag (.shl x y) s x ((s.getV x).toNat * 2 % 256) ((s.getV x).toNat / 128)

/-- R181: Vx is the byte drawn, masked with kk; the draw is the only other thing that happens. The drawn byte is a free
value (log 3), so this holds for every byte. -/
def Obligations.RndMasksTheDrawnByte : Prop :=
  ∀ (x : Reg) (kk : Byte) (s : State), ∃ t, exec (.rnd x kk) s = .next t ∧
    t.getV x = Config.rngByte s.rngDraws &&& kk ∧ t.getV x &&& ~~~kk = 0 ∧ RegsSameBut [x] s t ∧
    t = { s with v := t.v, rngDraws := s.rngDraws + 1 }

/-- 10_state.md R31: a flag-defining instruction leaves VF at 0 or 1; no other changes VF unless VF is its destination. -/
def Obligations.OnlyFlagInstructionsDefineVf : Prop :=
  ∀ (i : Instr) (s t : State), s.mode = .running → exec i s = .next t →
    (DefinesFlag i → t.faultOut = none → t.getV regVF = 0 ∨ t.getV regVF = 1) ∧
    (¬ DefinesFlag i → regVF ∉ destinations i → t.getV regVF = s.getV regVF)

/-- 10_state.md R33, which the spec derives: the registers each instruction writes: every other register is unchanged.
-/
def Obligations.RegistersOutsideTheDestinationsAreKept : Prop :=
  ∀ (i : Instr) (s t : State), exec i s = .next t → RegsSameBut (destinations i) s t

/-- 10_state.md R33, which the spec derives: the registers each instruction reads: changing any other register changes
nothing of what the instruction does, but for that register itself. -/
def Obligations.RegistersOutsideTheSourcesAreNotRead : Prop :=
  ∀ (i : Instr) (s t : State) (r : Reg) (b : Byte), r ∉ sources i → exec i s = .next t →
    exec i (s.setV r b) = .next t ∨ exec i (s.setV r b) = .next (t.setV r b)

/-! ## Index register and memory (42_index_memory.md) -/

/-- R210, R211, R212: the writes of I, no flag by the spec's decision D8, no mask by D9 and D12. FONT_BASE is open (log
4). -/
def Obligations.IndexRegisterWrites : Prop :=
  ∀ (x : Reg) (nnn : BitVec 12) (s : State),
    PutsInI (.ldINnn nnn) s nnn.toNat ∧
    PutsInI (.addIVx x) s ((s.i.toNat + (s.getV x).toNat) % 65536) ∧
    PutsInI (.ldFVx x) s (Config.fontBase.val + (s.getV x).toNat * 5) ∧
    Config.fontBase.val + (s.getV x).toNat * 5 ≤ 0x6AB

/-- R213: the decimal digits of Vx at I, I+1, I+2; out of range nothing is written (the spec's decisions D9, D10); I
unchanged (D15). -/
def Obligations.BcdStoresThreeDigits : Prop :=
  ∀ (x : Reg) (s : State),
    (s.i.toNat + 2 ≤ 0xFFF → ∃ t, exec (.ldBVx x) s = .next t ∧
      (t.mem.read s.i.toNat).toNat = (s.getV x).toNat / 100 ∧
      (t.mem.read (s.i.toNat + 1)).toNat = (s.getV x).toNat / 10 % 10 ∧
      (t.mem.read (s.i.toNat + 2)).toNat = (s.getV x).toNat % 10 ∧
      (∀ a, a < s.i.toNat ∨ s.i.toNat + 2 < a → t.mem.read a = s.mem.read a) ∧
      t = { s with mem := t.mem }) ∧
    (0xFFF < s.i.toNat + 2 → FaultsOutOfRange (.ldBVx x) s)

/-- R214: V0..Vx to memory from I up; out of range nothing is written (the spec's decisions D9, D10); I unchanged (D15).
-/
def Obligations.RegisterBlockStore : Prop :=
  ∀ (x : Reg) (s : State),
    (s.i.toNat + x.val ≤ 0xFFF → ∃ t, exec (.ldMemVx x) s = .next t ∧
      (∀ k : Reg, k ≤ x → t.mem.read (s.i.toNat + k.val) = s.getV k) ∧
      (∀ a, a < s.i.toNat ∨ s.i.toNat + x.val < a → t.mem.read a = s.mem.read a) ∧
      t = { s with mem := t.mem }) ∧
    (0xFFF < s.i.toNat + x.val → FaultsOutOfRange (.ldMemVx x) s)

/-- R215: V0..Vx from memory from I up; out of range nothing is loaded (the spec's decisions D9, D10); I unchanged
(D15). -/
def Obligations.RegisterBlockLoad : Prop :=
  ∀ (x : Reg) (s : State),
    (s.i.toNat + x.val ≤ 0xFFF → ∃ t, exec (.ldVxMem x) s = .next t ∧
      (∀ k : Reg, k ≤ x → t.getV k = s.mem.read (s.i.toNat + k.val)) ∧
      (∀ k : Reg, x < k → t.getV k = s.getV k) ∧
      t = { s with v := t.v }) ∧
    (0xFFF < s.i.toNat + x.val → FaultsOutOfRange (.ldVxMem x) s)

/-- R214 with R215: loading a stored block back gives the registers their stored values, in any later state with that
memory and that I. -/
def Obligations.StoredBlockLoadsBack : Prop :=
  ∀ (x : Reg) (s : State), s.i.toNat + x.val ≤ 0xFFF → ∃ t, exec (.ldMemVx x) s = .next t ∧
    ∀ u : State, u.mem = t.mem → u.i = s.i → ∃ w, exec (.ldVxMem x) u = .next w ∧
      ∀ k : Reg, k ≤ x → w.getV k = s.getV k

/-- 20_memory.md R82, the spec's decision D19: a byte Fx33 or Fx55 stores is the byte every later fetch of its address
reads, as the upper or the lower half of the word, self-modifying code included. -/
def Obligations.StoredBytesAreFetched : Prop :=
  ∀ (x : Reg) (s : State),
    (s.i.toNat + x.val ≤ 0xFFF → ∃ t, exec (.ldMemVx x) s = .next t ∧
      ∀ k : Reg, k ≤ x → FetchReads t.mem (s.i.toNat + k.val) (s.getV k).toNat) ∧
    (s.i.toNat + 2 ≤ 0xFFF → ∃ t, exec (.ldBVx x) s = .next t ∧
      FetchReads t.mem s.i.toNat ((s.getV x).toNat / 100) ∧
      FetchReads t.mem (s.i.toNat + 1) ((s.getV x).toNat / 10 % 10) ∧
      FetchReads t.mem (s.i.toNat + 2) ((s.getV x).toNat % 10))

/-- 70_reset_and_hazards.md R343, 20_memory.md R79: no byte of memory changes but by a reset, Fx33 or Fx55; and those
two change only the bytes they store to. -/
def Obligations.OnlyStoresAndResetChangeMemory : Prop :=
  ∀ (s t : State) (a : Nat), step s = .next t → t.mem.read a ≠ s.mem.read a →
    s.nextEvent.IsReset ∨
    (∃ x, Executes s (.ldBVx x) ∧ s.i.toNat ≤ a ∧ a ≤ s.i.toNat + 2 ∧ s.i.toNat + 2 ≤ 0xFFF) ∨
    (∃ x : Reg, Executes s (.ldMemVx x) ∧ s.i.toNat ≤ a ∧ a ≤ s.i.toNat + x.val ∧ s.i.toNat + x.val ≤ 0xFFF)

/-- 10_state.md R36, R41, R42: what changes I, the stack and the framebuffer, beside a reset. -/
def Obligations.WritersOfIndexStackAndFramebuffer : Prop :=
  ∀ s t : State, step s = .next t → ¬ s.nextEvent.IsReset →
    (t.i ≠ s.i → (∃ nnn, Executes s (.ldINnn nnn)) ∨ (∃ x, Executes s (.addIVx x)) ∨ ∃ x, Executes s (.ldFVx x)) ∧
    (t.stack ≠ s.stack → (∃ nnn, Executes s (.call nnn)) ∨ Executes s .ret) ∧
    (t.fb ≠ s.fb → Executes s .cls ∨ ∃ x y n, Executes s (.drw x y n))

/-- 10_state.md R39, R40: what changes the timers, beside a reset. -/
def Obligations.WritersOfTheTimers : Prop :=
  ∀ s t : State, step s = .next t → ¬ s.nextEvent.IsReset →
    (t.dt ≠ s.dt → s.nextEvent = .tickDt ∨ ∃ x, Executes s (.ldDtVx x)) ∧
    (t.st ≠ s.st → s.nextEvent = .tickSt ∨ ∃ x, Executes s (.ldStVx x))

/-! ## Display (43_display.md) -/

/-- R240, R241: CLS clears every pixel and changes nothing else. -/
def Obligations.ClsClearsEveryPixel : Prop :=
  ∀ s : State, ∃ t, exec .cls s = .next t ∧ (∀ x y, t.fb.pixel x y = false) ∧ t = { s with fb := t.fb }

/-- R242, R243: DRW flips exactly the pixels a 1 bit of the sprite lands on, coordinates wrapped, and sets VF to 1
exactly when one of them was set; n = 0 reads nothing (the spec's decision D16); out of range nothing changes (D9, D10).
x or y may be VF: its old value is the coordinate. -/
def Obligations.DrawXorsTheSpriteAndReportsErasure : Prop :=
  ∀ (x y : Reg) (n : Fin 16) (s : State),
    ((n = 0 ∨ s.i.toNat + n.val - 1 ≤ 0xFFF) → ∃ t, exec (.drw x y n) s = .next t ∧
      (∀ px py, SpriteCovers s (s.getV x) (s.getV y) n.val px py → t.fb.pixel px py = !s.fb.pixel px py) ∧
      (∀ px py, ¬ SpriteCovers s (s.getV x) (s.getV y) n.val px py → t.fb.pixel px py = s.fb.pixel px py) ∧
      ((∃ px py, SpriteCovers s (s.getV x) (s.getV y) n.val px py ∧ s.fb.pixel px py = true) → t.getV regVF = 1) ∧
      ((∀ px py, SpriteCovers s (s.getV x) (s.getV y) n.val px py → s.fb.pixel px py = false) → t.getV regVF = 0) ∧
      RegsSameBut [regVF] s t ∧ t = { s with v := t.v, fb := t.fb }) ∧
    (n ≠ 0 → 0xFFF < s.i.toNat + n.val - 1 → FaultsOutOfRange (.drw x y n) s)

/-- R244, which the spec derives from R242: drawing the same sprite twice at the same place restores the framebuffer,
and the second draw's flag is 1 exactly when the first draw set a pixel. The coordinates are in registers other than VF:
with x or y = F the first draw's flag changes the coordinate, and the second draw is not at the same place. -/
def Obligations.DrawingTwiceRestoresTheFramebuffer : Prop :=
  ∀ (x y : Reg) (n : Fin 16) (s : State), x ≠ regVF → y ≠ regVF → (n = 0 ∨ s.i.toNat + n.val - 1 ≤ 0xFFF) →
    ∃ t u, exec (.drw x y n) s = .next t ∧ exec (.drw x y n) t = .next u ∧ u.fb = s.fb ∧
      (u.getV regVF = 1 ↔
        ∃ px py, SpriteCovers s (s.getV x) (s.getV y) n.val px py ∧ s.fb.pixel px py = false) ∧
      RegsSameBut [regVF] s u ∧ u = { s with v := u.v }

/-! ## Keys, timers, the wait (44_timers_input.md) -/

/-- R270, R271, R278: the key skips; a byte above 0x0F names no key and is never pressed (the spec's decision D13). -/
def Obligations.KeySkips : Prop :=
  ∀ (x : Reg) (s : State),
    SkipsExactlyWhen (.skp x) s ((s.getV x).toNat ≤ 0x0F ∧ s.keys.getLsbD (s.getV x).toNat = true) ∧
    SkipsExactlyWhen (.sknp x) s (¬ ((s.getV x).toNat ≤ 0x0F ∧ s.keys.getLsbD (s.getV x).toNat = true))

/-- R272, R273, R274, R282: reading DT, setting DT and ST; the sound output follows ST. -/
def Obligations.TimerTransfers : Prop :=
  ∀ (x : Reg) (s : State),
    PutsInVx (.ldVxDt x) s x s.dt.toNat ∧
    exec (.ldDtVx x) s = .next { s with dt := s.getV x } ∧
    exec (.ldStVx x) s = .next { s with st := s.getV x } ∧
    (s.soundOut = true ↔ s.st.toNat > 0)

/-- R275: Fx0A makes the block wait; no register is written yet. -/
def Obligations.WaitForKeySuspendsStepping : Prop :=
  ∀ (x : Reg) (s : State), exec (.ldVxK x) s = .next { s with mode := .waiting x }

/-- R276: a key press joins the Input Surface; it ends a wait exactly when the key was not down, the block waits and is
enabled, and then Vx is the key's id. The spec's decisions D14, D27, D32; the Input Surface is the model's field keys
(log 8). -/
def Obligations.KeyDownEndsAWait : Prop :=
  ∀ (s : State) (id : KeyId) (rest : List Event), s.schedule = .keyDown id :: rest → ∃ t, step s = .next t ∧
    (∀ k : KeyId, t.keys.getLsbD k.val = (s.keys.getLsbD k.val || decide (k = id))) ∧
    (∀ x, s.mode = .waiting x → s.enabled = true → s.keys.getLsbD id.val = false →
      (t.getV x).toNat = id.val ∧ RegsSameBut [x] s t ∧
      t = { s with v := t.v, mode := .running, keys := t.keys, schedule := rest }) ∧
    (((∀ x, s.mode ≠ .waiting x) ∨ s.enabled = false ∨ s.keys.getLsbD id.val = true) →
      t = { s with keys := t.keys, schedule := rest })

/-- R277, the spec's decision D27: a key release leaves the Input Surface (log 8) and changes no state of the block. -/
def Obligations.KeyUpOnlyChangesTheInputSurface : Prop :=
  ∀ (s : State) (id : KeyId) (rest : List Event), s.schedule = .keyUp id :: rest → ∃ t, step s = .next t ∧
    (∀ k : KeyId, t.keys.getLsbD k.val = (s.keys.getLsbD k.val && decide (k ≠ id))) ∧
    t = { s with keys := t.keys, schedule := rest }

/-- R280, R281: each tick, when enabled, takes 1 from its own timer if that is above 0, and changes nothing else. That
it does so in every mode, Faulted among them, is R283 with the spec's decision D26 (log 17); the tick comes as the next
event of the schedule (log 2). -/
def Obligations.TicksCountTheirTimerDown : Prop :=
  ∀ (s : State) (rest : List Event),
    (s.schedule = .tickDt :: rest → ∃ t, step s = .next t ∧
      (s.enabled = true → (s.dt.toNat > 0 → t.dt.toNat = s.dt.toNat - 1) ∧ (s.dt = 0 → t.dt = 0)) ∧
      (s.enabled = false → t.dt = s.dt) ∧ t = { s with dt := t.dt, schedule := rest }) ∧
    (s.schedule = .tickSt :: rest → ∃ t, step s = .next t ∧
      (s.enabled = true → (s.st.toNat > 0 → t.st.toNat = s.st.toNat - 1) ∧ (s.st = 0 → t.st = 0)) ∧
      (s.enabled = false → t.st = s.st) ∧ t = { s with st := t.st, schedule := rest })

/-- R275: while the block waits and no key is pressed and no reset comes, every number of steps of the machine leaves it
waiting: registers, PC, I, stack, framebuffer and memory stay. -/
def Obligations.WaitingLastsUntilAKeyPress : Prop :=
  ∀ (k : Nat) (s : State) (x : Reg), s.mode = .waiting x →
    (∀ e ∈ s.schedule.take k, (∀ id, e ≠ .keyDown id) ∧ ¬ e.IsReset) →
    ∃ t : State, Sys2Proof.core.run k s = .next t ∧
      t = { s with dt := t.dt, st := t.st, enabled := t.enabled, keys := t.keys, schedule := t.schedule }

/-- The keys reach a program only through Ex9E and ExA1: any other instruction does the same whatever keys are down
(44_timers_input.md R270, R271, R277; 10_state.md R47). -/
def Obligations.OnlyKeySkipsReadTheKeys : Prop :=
  ∀ (i : Instr) (s t : State) (held : BitVec 16), (∀ x, i ≠ .skp x) → (∀ x, i ≠ .sknp x) →
    exec i s = .next t → exec i { s with keys := held } = .next { t with keys := held }

/-! ## Errors (60_exceptions.md) -/

/-- R300: each error, its code (the spec's decision D18), the step that raises it and the info it records. A stack
deeper than 16, which no run reaches, counts as full (log 14). -/
def Obligations.EachErrorHasItsRaisers : Prop :=
  ∀ (s t : State) (e : FatalError), s.WillExecute → step s = .next t → t.mode = .faulted e →
    match e with
    | .stackOverflow pc => e.code = 1 ∧ pc = s.pc ∧ 16 ≤ s.stack.length ∧ ∃ nnn, Executes s (.call nnn)
    | .stackUnderflow pc => e.code = 2 ∧ pc = s.pc ∧ s.stack = [] ∧ Executes s .ret
    | .addressOutOfRange addr pc => e.code = 3 ∧ pc = s.pc ∧ 0xFFF < addr ∧
        ((0xFFE < s.pc.toNat ∧ FirstAddressAbove s.pc.toNat addr) ∨
          (FirstAddressAbove s.i.toNat addr ∧ ((∃ x y n, Executes s (.drw x y n)) ∨ (∃ x, Executes s (.ldBVx x)) ∨
            (∃ x, Executes s (.ldMemVx x)) ∨ ∃ x, Executes s (.ldVxMem x))))
    | .unknownOpcode op pc => e.code = 4 ∧ pc = s.pc ∧ s.strictUnknown = true ∧ Executes s (.unknown op)

/-- R301, R308: errors are precise: a step that raises one changes nothing but the mode and, unless the fetch itself
faulted, PC, which keeps the advance of the fetch. The spec's decision D10. -/
def Obligations.AFaultingStepChangesOnlyModeAndPc : Prop :=
  ∀ (s t : State), s.WillExecute → step s = .next t → t.faultOut ≠ none →
    t = { s with mode := t.mode, pc := t.pc, schedule := s.schedule.tail } ∧
    (0xFFE < s.pc.toNat → t.pc = s.pc) ∧ (s.pc.toNat ≤ 0xFFE → t.pc = s.pc + 2)

/-- R301: a fault is never cleared by anything but reset: over any number of steps of the machine with no reset among
their events, the block stays faulted with the same error, and registers, PC, I, stack, framebuffer and memory stay. Any
order of events is a schedule (log 2). -/
def Obligations.FaultedUntilReset : Prop :=
  ∀ (k : Nat) (s : State) (e : FatalError), s.mode = .faulted e → (∀ ev ∈ s.schedule.take k, ¬ ev.IsReset) →
    ∃ t : State, Sys2Proof.core.run k s = .next t ∧
      t = { s with dt := t.dt, st := t.st, enabled := t.enabled, keys := t.keys, schedule := t.schedule }

/-! ## The host (60_exceptions.md R321, R322) and reset (70_reset_and_hazards.md) -/

/-- R321: stop and start write `enabled` and nothing else; while it is 0, steps and ticks have no effect and a key press
does not end a wait. The spec's decisions D23, D32. -/
def Obligations.StopAndStartSwitchTheTasks : Prop :=
  ∀ (s : State) (rest : List Event),
    (s.schedule = .stop :: rest → step s = .next { s with enabled := false, schedule := rest }) ∧
    (s.schedule = .start :: rest → step s = .next { s with enabled := true, schedule := rest }) ∧
    (s.enabled = false → s.nextEvent = .step ∨ s.nextEvent = .tickDt ∨ s.nextEvent = .tickSt →
      step s = .next { s with schedule := s.schedule.tail }) ∧
    (s.enabled = false → ∀ id, s.schedule = .keyDown id :: rest →
      ∃ t, step s = .next t ∧ t = { s with keys := t.keys, schedule := rest })

/-- R321: after `stop` no further state mutation occurs: over any number of steps with no start and no reset among their
events, nothing changes but the Input Surface, which the host owns. -/
def Obligations.StoppedBlockIsFrozen : Prop :=
  ∀ (k : Nat) (s : State), s.enabled = false → (∀ e ∈ s.schedule.take k, e ≠ .start ∧ ¬ e.IsReset) →
    ∃ t : State, Sys2Proof.core.run k s = .next t ∧ t = { s with keys := t.keys, schedule := s.schedule.drop k }

/-- 60_exceptions.md R322, 70_reset_and_hazards.md R343: the host cannot write registers, memory or the framebuffer but
through reset and the key that ends a wait: every event other than a step and a reset leaves PC, I, stack, memory and
framebuffer, and every register but the one a wait names. That `enabled` changes by stop and start only, so by no reset,
is the spec's decision D23 (70_reset_and_hazards.md R340, 60_exceptions.md R321; log 13). That the Input Surface, which
is no state of the block, is a field that key events alone change is the model's choice (log 8), and that a reset leaves
it is the spec's decision D20. The parameters are fixed outside the block (00_scope.md R8, 10_state.md R44); that they
are fields no event changes is the model's choice (log 6, log 7). -/
def Obligations.WhatEventsCanChange : Prop :=
  ∀ s t : State, step s = .next t →
    (s.nextEvent ≠ .step → ¬ s.nextEvent.IsReset →
      t.pc = s.pc ∧ t.i = s.i ∧ t.stack = s.stack ∧ t.mem = s.mem ∧ t.fb = s.fb ∧
      (∀ r, t.getV r ≠ s.getV r → s.mode = .waiting r ∧ ∃ id, s.nextEvent = .keyDown id)) ∧
    t.strictUnknown = s.strictUnknown ∧ t.zeroWordPolicy = s.zeroWordPolicy ∧
    (t.enabled ≠ s.enabled → s.nextEvent = .stop ∨ s.nextEvent = .start) ∧
    (t.keys ≠ s.keys → ∃ id, s.nextEvent = .keyDown id ∨ s.nextEvent = .keyUp id)

/-- R340, 20_memory.md R84: a reset sets every item of the block, whatever state it comes in; a ROM that does not fit is
refused and nothing happens. The spec's decisions D7, D20, D21. The parameters and the model's own fields are left alone
(log 20). -/
def Obligations.ResetSetsEveryItem : Prop :=
  ∀ (s : State) (rom : List Byte) (rest : List Event), s.schedule = .reset rom :: rest →
    (rom.length ≤ 0xE00 → ∃ t, step s = .next t ∧
      (∀ r, t.getV r = 0) ∧ t.i = 0 ∧ t.dt = 0 ∧ t.st = 0 ∧ t.pc = 0x200 ∧ t.stack = [] ∧ t.mode = .running ∧
      (∀ x y, t.fb.pixel x y = false) ∧
      (∀ k : Fin 80, t.mem.read (Config.fontBase.val + k.val) = Config.fontData k) ∧
      (∀ k (h : k < rom.length), t.mem.read (0x200 + k) = rom[k]) ∧
      (∀ a, a < Config.fontBase.val ∨ (Config.fontBase.val + 80 ≤ a ∧ a < 0x200) ∨ 0x200 + rom.length ≤ a →
        t.mem.read a = 0) ∧
      t = { s with v := t.v, i := t.i, dt := t.dt, st := t.st, pc := t.pc, stack := t.stack, mode := t.mode,
                   fb := t.fb, mem := t.mem, schedule := rest }) ∧
    (0xE00 < rom.length → step s = .next { s with schedule := rest })

/-- 10_state.md R48, 70_reset_and_hazards.md R342: the state after power-on with the empty ROM: the values of the R48
table, with the tasks enabled. The spec's decisions D7, D20, D23; the empty ROM is the model's choice (log 12). -/
def Obligations.ResetStateHoldsTheTable : Prop :=
  (∀ r, State.reset.getV r = 0) ∧ State.reset.i = 0 ∧ State.reset.dt = 0 ∧ State.reset.st = 0 ∧
  State.reset.pc = 0x200 ∧ State.reset.stack = [] ∧ (∀ x y, State.reset.fb.pixel x y = false) ∧
  (∀ k : Fin 80, State.reset.mem.read (Config.fontBase.val + k.val) = Config.fontData k) ∧
  (∀ a, a < Config.fontBase.val ∨ Config.fontBase.val + 80 ≤ a → State.reset.mem.read a = 0) ∧
  State.reset.mode = .running ∧ State.reset.enabled = true

/-- 20_memory.md R71 with 42_index_memory.md R212: after a reset, `Fx29` with a digit d in Vx points I at the five bytes
of glyph d, and the font lies below the program region. -/
def Obligations.FontPointerFindsTheGlyph : Prop :=
  ∀ (s t u : State) (rom : List Byte) (rest : List Event) (x : Reg) (d j : Nat) (hd : d < 16) (hj : j < 5),
    s.schedule = .reset rom :: rest → rom.length ≤ 0xE00 → step s = .next t → u.mem = t.mem → (u.getV x).toNat = d →
    ∃ w, exec (.ldFVx x) u = .next w ∧ w.mem = u.mem ∧
      w.mem.read (w.i.toNat + j) = Config.fontData ⟨5 * d + j, by omega⟩ ∧ w.i.toNat + j < 0x200

/-! ## The invariant -/

/-- The state after reset meets the invariant. -/
def Obligations.ResetMeetsTheInvariant : Prop := State.reset.Inv

/-- Every step keeps the invariant: the memory stays in its canonical form, inside 0x000..0xFFF (20_memory.md R70); the
call stack stays at depth 0..16 (10_state.md R41); and a Faulted mode keeps fitting the state: a StackOverflow with a
full stack, a StackUnderflow with an empty one, an AddressOutOfRange with an address above 0xFFF, an UnknownOpcode with
an unknown word in strict mode (60_exceptions.md R300). -/
def Obligations.EveryStepKeepsTheInvariant : Prop :=
  ∀ s t : State, s.Inv → step s = .next t → t.Inv

/-! ## Runs: sequences of events (60_exceptions.md R320) and their end (70_reset_and_hazards.md R350) -/

/-- 70_reset_and_hazards.md R350: the sentinel does not stop the block: where the next step fetches 0x0000, that step
moves PC by 2 under Advance and changes nothing under Hold. A run ends at the FIRST event that fetches 0x0000, in the
state just before it, so it has at most one end state; a run that comes to be Faulted first has none, a reset afterwards
or not (log 22); a finite run ends where the infinite ones that begin with it do; and the end is the same under both
values of ZERO_WORD_POLICY. The spec's decisions D2, D29. -/
def Obligations.TheSentinelEndsARunButNotTheBlock : Prop :=
  (∀ s : State,
    (s.AtEnd ↔ s.WillExecute ∧ s.pc.toNat ≤ 0xFFE ∧ s.mem.read s.pc.toNat = 0 ∧ s.mem.read (s.pc.toNat + 1) = 0) ∧
    (s.AtEnd → s.zeroWordPolicy = .advance → step s = .next { s with pc := s.pc + 2, schedule := s.schedule.tail }) ∧
    (s.AtEnd → s.zeroWordPolicy = .hold → step s = .next { s with schedule := s.schedule.tail })) ∧
  ∀ (events : Nat → Event) (states : Nat → State), IsRun events states →
    (∀ t u, IsEndState events states t → IsEndState events states u → t = u) ∧
    (∀ n, EndsAt events states n → ∀ m, FetchesSentinel (events m) (states m) → n ≤ m) ∧
    (∀ m, (states m).faultOut ≠ none → (∀ k, k < m → ¬ FetchesSentinel (events k) (states k)) →
      ∀ t, ¬ IsEndState events states t) ∧
    (∀ k t, EndsFinite ((List.range k).map events) (states 0) t ↔ ∃ n, n < k ∧ EndsAt events states n ∧ t = states n) ∧
    (∀ (policy : ZeroWordPolicy) (others : Nat → State), IsRun events others →
      others 0 = { states 0 with zeroWordPolicy := policy } →
      ∀ n, EndsAt events states n →
        EndsAt events others n ∧ others n = { states n with zeroWordPolicy := policy })

/-- 60_exceptions.md R320, 44_timers_input.md R284: in a fair run that is enabled from some point on and from there on is
neither reset nor sets the timer, the timer comes to 0 and stays there: an instruction that polls it then reads 0. Weak
fairness is the spec's decision D17. -/
def Obligations.FairRunsCountTheTimersDown : Prop :=
  ∀ (events : Nat → Event) (states : Nat → State) (n : Nat),
    IsRun events states → WeaklyFair events states → (∀ m, n ≤ m → (states m).enabled = true) →
    (∀ m, n ≤ m → ¬ (events m).IsReset) →
    ((∀ m x, n ≤ m → ¬ EventExecutes (events m) (states m) (.ldDtVx x)) →
      ∃ k, n ≤ k ∧ ∀ m, k ≤ m → (states m).dt = 0) ∧
    ((∀ m x, n ≤ m → ¬ EventExecutes (events m) (states m) (.ldStVx x)) →
      ∃ k, n ≤ k ∧ ∀ m, k ≤ m → (states m).st = 0)
end

