-- ==== Sys2Proof/Laws/Codec.lean ====
section
/-! SUPPORT. The fields of a word and the formats of an encoding as numbers: what each reads, once, so that proofs about
decoding are linear arithmetic. -/

namespace Sys2Proof.Laws

theorem opFamily_toNat (op : Word) : (opFamily op).toNat = op.toNat / 0x1000 := by
  simp only [opFamily, BitVec.extractLsb'_toNat, Nat.shiftRight_eq_div_pow]; omega

theorem fieldX_val (op : Word) : (fieldX op).val = op.toNat / 0x100 % 16 := by
  simp [fieldX, Nat.shiftRight_eq_div_pow]

theorem fieldY_val (op : Word) : (fieldY op).val = op.toNat / 0x10 % 16 := by
  simp [fieldY, Nat.shiftRight_eq_div_pow]

theorem fieldN_val (op : Word) : (fieldN op).val = op.toNat % 16 := by
  simp [fieldN]

theorem fieldKk_toNat (op : Word) : (fieldKk op).toNat = op.toNat % 256 := by
  simp [fieldKk]

theorem fieldNnn_toNat (op : Word) : (fieldNnn op).toNat = op.toNat % 4096 := by
  simp [fieldNnn]

theorem highByte_toNat (op : Word) : (highByte op).toNat = op.toNat / 256 := by
  simp only [highByte, BitVec.extractLsb'_toNat, Nat.shiftRight_eq_div_pow]; omega

theorem lowByte_toNat (op : Word) : (lowByte op).toNat = op.toNat % 256 := by
  simp [lowByte]

theorem wordOfBytes_toNat (hi lo : Byte) : (wordOfBytes hi lo).toNat = hi.toNat * 256 + lo.toNat := by
  simp only [wordOfBytes, BitVec.toNat_ofNat]; omega

/-- Splitting a word into its bytes in memory order and joining them again gives the word back. -/
theorem wordOfBytes_split (op : Word) : wordOfBytes (highByte op) (lowByte op) = op := by
  apply BitVec.eq_of_toNat_eq
  rw [wordOfBytes_toNat, highByte_toNat, lowByte_toNat]; omega

theorem packNnn_toNat {f : Nat} (hf : f < 16) (nnn : BitVec 12) :
    (packNnn f nnn).toNat = f * 0x1000 + nnn.toNat := by
  simp only [packNnn, BitVec.toNat_ofNat]; omega

theorem packXkk_toNat {f : Nat} (hf : f < 16) (x : Reg) (kk : Byte) :
    (packXkk f x kk).toNat = f * 0x1000 + x.val * 0x100 + kk.toNat := by
  simp only [packXkk, BitVec.toNat_ofNat]; omega

theorem packXyn_toNat {f : Nat} (hf : f < 16) (x y : Reg) (n : Fin 16) :
    (packXyn f x y n).toNat = f * 0x1000 + x.val * 0x100 + y.val * 0x10 + n.val := by
  simp only [packXyn, BitVec.toNat_ofNat]; omega

/-! Each format gives its fields back. -/

theorem opFamily_packNnn {f : Nat} (hf : f < 16) (nnn : BitVec 12) : (opFamily (packNnn f nnn)).toNat = f := by
  rw [opFamily_toNat, packNnn_toNat hf]; omega

theorem fieldNnn_packNnn {f : Nat} (hf : f < 16) (nnn : BitVec 12) : fieldNnn (packNnn f nnn) = nnn := by
  apply BitVec.eq_of_toNat_eq; rw [fieldNnn_toNat, packNnn_toNat hf]; omega

theorem opFamily_packXkk {f : Nat} (hf : f < 16) (x : Reg) (kk : Byte) : (opFamily (packXkk f x kk)).toNat = f := by
  rw [opFamily_toNat, packXkk_toNat hf]; omega

theorem fieldX_packXkk {f : Nat} (hf : f < 16) (x : Reg) (kk : Byte) : fieldX (packXkk f x kk) = x := by
  apply Fin.ext; rw [fieldX_val, packXkk_toNat hf]; omega

theorem fieldKk_packXkk {f : Nat} (hf : f < 16) (x : Reg) (kk : Byte) : fieldKk (packXkk f x kk) = kk := by
  apply BitVec.eq_of_toNat_eq; rw [fieldKk_toNat, packXkk_toNat hf]; omega

theorem opFamily_packXyn {f : Nat} (hf : f < 16) (x y : Reg) (n : Fin 16) :
    (opFamily (packXyn f x y n)).toNat = f := by
  rw [opFamily_toNat, packXyn_toNat hf]; omega

theorem fieldX_packXyn {f : Nat} (hf : f < 16) (x y : Reg) (n : Fin 16) : fieldX (packXyn f x y n) = x := by
  apply Fin.ext; rw [fieldX_val, packXyn_toNat hf]; omega

theorem fieldY_packXyn {f : Nat} (hf : f < 16) (x y : Reg) (n : Fin 16) : fieldY (packXyn f x y n) = y := by
  apply Fin.ext; rw [fieldY_val, packXyn_toNat hf]; omega

theorem fieldN_packXyn {f : Nat} (hf : f < 16) (x y : Reg) (n : Fin 16) : fieldN (packXyn f x y n) = n := by
  apply Fin.ext; rw [fieldN_val, packXyn_toNat hf]; omega

/-! The masks of the opcode map as numbers. -/

theorem and_F000_toNat (op : Word) : (op &&& 0xF000#16).toNat = op.toNat / 0x1000 * 0x1000 := by
  have h : op &&& 0xF000#16 = (op >>> 12) <<< 12 := by
    ext k hk
    rcases k with _|_|_|_|_|_|_|_|_|_|_|_|_|_|_|_|k <;> simp; omega
  rw [h, BitVec.toNat_shiftLeft, BitVec.toNat_ushiftRight, Nat.shiftRight_eq_div_pow, Nat.shiftLeft_eq]
  omega

theorem and_low_toNat (op : Word) {k : Nat} (hk : k ≤ 16) :
    (op &&& BitVec.ofNat 16 (2 ^ k - 1)).toNat = op.toNat % 2 ^ k := by
  have : 2 ^ k ≤ 2 ^ 16 := Nat.pow_le_pow_right (by decide) hk
  have h1 : 2 ^ k - 1 < 2 ^ 16 := by omega
  rw [BitVec.toNat_and, BitVec.toNat_ofNat, Nat.mod_eq_of_lt h1, Nat.and_two_pow_sub_one_eq_mod]

theorem and_split (op a b : Word) (h : a &&& b = 0) : op &&& (a ||| b) = (op &&& a) + (op &&& b) := by
  rw [BitVec.add_eq_or_of_and_eq_zero, BitVec.and_or_distrib_left]
  have : (op &&& a) &&& (op &&& b) = op &&& (a &&& b) := by
    ext k hk; simp only [BitVec.getElem_and]; cases op[k] <;> simp
  rw [this, h]; simp

theorem and_F00F_toNat (op : Word) : (op &&& 0xF00F#16).toNat = op.toNat / 0x1000 * 0x1000 + op.toNat % 16 := by
  have h : op &&& 0xF00F#16 = (op &&& 0xF000#16) + (op &&& 0x000F#16) :=
    and_split op 0xF000#16 0x000F#16 (by decide)
  have h2 : (op &&& 0x000F#16).toNat = op.toNat % 16 := and_low_toNat op (k := 4) (by decide)
  rw [h, BitVec.toNat_add, and_F000_toNat, h2]
  omega

theorem and_F0FF_toNat (op : Word) : (op &&& 0xF0FF#16).toNat = op.toNat / 0x1000 * 0x1000 + op.toNat % 256 := by
  have h : op &&& 0xF0FF#16 = (op &&& 0xF000#16) + (op &&& 0x00FF#16) :=
    and_split op 0xF000#16 0x00FF#16 (by decide)
  have h2 : (op &&& 0x00FF#16).toNat = op.toNat % 256 := and_low_toNat op (k := 8) (by decide)
  rw [h, BitVec.toNat_add, and_F000_toNat, h2]
  omega

end Sys2Proof.Laws
end

