-- ==== Sys2Proof/Laws/Display.lean ====
section
/-! SUPPORT. The framebuffer: a pixel after a write, one pixel of a draw, and the whole draw. -/

namespace Sys2Proof.Machine

theorem rowSetPixel_getLsbD (row : BitVec 64) (x : Fin 64) (b : Bool) {k : Nat} (hk : k < 64) :
    (rowSetPixel row x b).getLsbD k = if k = x.val then b else row.getLsbD k := by
  unfold rowSetPixel
  cases b
  · by_cases h : k = x.val
    · simp [h]
    · simp [hk, h]
  · by_cases h : k = x.val
    · simp [h]
    · simp [h, Ne.symm h]

theorem Framebuffer.pixel_setPixel (fb : Framebuffer) (x u : Fin 64) (y w : Fin 32) (b : Bool) :
    (fb.setPixel x y b).pixel u w = if u = x ∧ w = y then b else fb.pixel u w := by
  simp only [Framebuffer.pixel, Framebuffer.setPixel, Vector.getElem_set]
  by_cases hy : y.val = w.val
  · obtain rfl : y = w := Fin.ext hy
    rw [if_pos rfl, rowSetPixel_getLsbD _ _ _ u.isLt]
    by_cases hu : u = x
    · simp [hu]
    · rw [if_neg (fun e => hu (Fin.ext e)), if_neg (fun e => hu e.1)]
  · rw [if_neg hy, if_neg (fun e => hy (by rw [e.2]))]

@[simp] theorem Framebuffer.pixel_cleared (x : Fin 64) (y : Fin 32) : Framebuffer.cleared.pixel x y = false := by
  simp [Framebuffer.pixel, Framebuffer.cleared]

/-- One plotted pixel: it is XORed with the bit, every other pixel keeps its value. -/
theorem plot_pixel (acc : Framebuffer × Bool) (nx u : Fin 64) (ny w : Fin 32) (bit : Bool) :
    (plot acc nx ny bit).1.pixel u w = (acc.1.pixel u w ^^ (decide (u = nx ∧ w = ny) && bit)) := by
  simp only [plot, Framebuffer.pixel_setPixel]
  by_cases h : u = nx ∧ w = ny
  · simp [h.1, h.2]
  · simp [h]

/-- One plotted pixel raises the collision flag exactly when it erases a set pixel. -/
theorem plot_collision (acc : Framebuffer × Bool) (nx : Fin 64) (ny : Fin 32) (bit : Bool) :
    (plot acc nx ny bit).2 = (acc.2 || (acc.1.pixel nx ny && bit)) := rfl

/-- Two framebuffers are equal when every pixel is. -/
theorem Framebuffer.ext_pixel {f g : Framebuffer} (h : ∀ x y, Framebuffer.pixel f x y = Framebuffer.pixel g x y) :
    f = g := by
  apply Vector.ext
  intro y hy
  apply BitVec.eq_of_getLsbD_eq
  intro x hx
  exact h ⟨x, hx⟩ ⟨y, hy⟩

/-- A 1 bit of the sprite `sp`, its first row drawn `r0` rows below `y8`, lands on pixel (px, py) (43_display.md R242). -/
def SpriteLands (x8 y8 r0 : Nat) (sp : List Byte) (px : Fin 64) (py : Fin 32) : Prop :=
  ∃ r b, ∃ h : r < sp.length, b < 8 ∧ px.val = (x8 + b) % 64 ∧ py.val = (y8 + (r0 + r)) % 32 ∧
    sp[r].getLsbD (7 - b) = true

/-- One of the first `m` bits of a sprite row is 1 and lands on pixel (px, py). -/
def RowLands (x8 : Nat) (ny : Fin 32) (byte : Byte) (m : Nat) (px : Fin 64) (py : Fin 32) : Prop :=
  ∃ b, b < m ∧ px.val = (x8 + b) % 64 ∧ py = ny ∧ byte.getLsbD (7 - b) = true

/-- Bit `m` lands on a pixel of its own: the bits before it land elsewhere. -/
theorem RowLands.fresh {x8 m : Nat} {ny py : Fin 32} {byte : Byte} {px : Fin 64} (hm : m < 8)
    (h : RowLands x8 ny byte m px py) : ¬ (px = wrapX (x8 + m) ∧ py = ny) := by
  obtain ⟨b, hb, hx, -, -⟩ := h
  rintro ⟨rfl, -⟩
  simp only [wrapX] at hx
  omega

/-- The first `m` bits of a sprite row: the pixels a 1 bit lands on are flipped, the others kept, and the collision flag is
raised exactly when one of them was set. -/
theorem plotRow_cases (x8 : Nat) (ny : Fin 32) (byte : Byte) (m : Nat) (acc : Framebuffer × Bool) (hm : m ≤ 8) :
    let res := (List.range m).foldl (fun a b => plot a (wrapX (x8 + b)) ny (spriteBit byte b)) acc
    (∀ px py, (RowLands x8 ny byte m px py → res.1.pixel px py = !acc.1.pixel px py) ∧
      (¬ RowLands x8 ny byte m px py → res.1.pixel px py = acc.1.pixel px py)) ∧
    (res.2 = true ↔ acc.2 = true ∨ ∃ px py, RowLands x8 ny byte m px py ∧ acc.1.pixel px py = true) := by
  induction m with
  | zero => simp [RowLands]
  | succ m ih =>
    have ih := ih (by omega)
    simp only [List.range_succ, List.foldl_append, List.foldl_cons, List.foldl_nil] at ih ⊢
    set res := (List.range m).foldl (fun a b => plot a (wrapX (x8 + b)) ny (spriteBit byte b)) acc
    obtain ⟨ih1, ih2⟩ := ih
    have own : ¬ RowLands x8 ny byte m (wrapX (x8 + m)) ny := fun h => h.fresh (by omega) ⟨rfl, rfl⟩
    have split : ∀ px py, RowLands x8 ny byte (m + 1) px py ↔
        RowLands x8 ny byte m px py ∨ (px = wrapX (x8 + m) ∧ py = ny ∧ byte.getLsbD (7 - m) = true) := by
      intro px py
      constructor
      · rintro ⟨b, hb, hx, hy, hbit⟩
        by_cases hbm : b = m
        · subst hbm; exact .inr ⟨Fin.ext hx, hy, hbit⟩
        · exact .inl ⟨b, by omega, hx, hy, hbit⟩
      · rintro (⟨b, hb, h⟩ | ⟨rfl, hy, hbit⟩)
        · exact ⟨b, by omega, h⟩
        · exact ⟨m, by omega, rfl, hy, hbit⟩
    refine ⟨fun px py => ⟨?_, ?_⟩, ?_⟩
    · rw [split, plot_pixel]
      rintro (h | ⟨rfl, rfl, hbit⟩)
      · simp [(ih1 px py).1 h, h.fresh (by omega)]
      · simp [(ih1 _ _).2 own, spriteBit, hbit]
    · rw [split, plot_pixel]
      intro h
      rw [(ih1 px py).2 fun h' => h (.inl h')]
      by_cases hp : px = wrapX (x8 + m) ∧ py = ny
      · have hbit : byte.getLsbD (7 - m) = false := by
          by_contra hc
          exact h (.inr ⟨hp.1, hp.2, by simpa using hc⟩)
        simp [spriteBit, hbit]
      · simp [hp]
    · rw [plot_collision]
      simp only [Bool.or_eq_true, Bool.and_eq_true, ih2, split, spriteBit, (ih1 _ _).2 own]
      constructor
      · rintro ((h | ⟨px, py, h1, h2⟩) | ⟨h1, h2⟩)
        · exact .inl h
        · exact .inr ⟨px, py, .inl h1, h2⟩
        · exact .inr ⟨_, _, .inr ⟨rfl, rfl, h2⟩, h1⟩
      · rintro (h | ⟨px, py, h1 | ⟨rfl, rfl, hbit⟩, h2⟩)
        · exact .inl (.inl h)
        · exact .inl (.inr ⟨px, py, h1, h2⟩)
        · exact .inr ⟨h2, hbit⟩

theorem drawRow_cases (x8 : Nat) (ny : Fin 32) (byte : Byte) (acc : Framebuffer × Bool) :
    (∀ px py, (RowLands x8 ny byte 8 px py → (drawRow x8 ny byte acc).1.pixel px py = !acc.1.pixel px py) ∧
      (¬ RowLands x8 ny byte 8 px py → (drawRow x8 ny byte acc).1.pixel px py = acc.1.pixel px py)) ∧
    ((drawRow x8 ny byte acc).2 = true ↔
      acc.2 = true ∨ ∃ px py, RowLands x8 ny byte 8 px py ∧ acc.1.pixel px py = true) :=
  plotRow_cases x8 ny byte 8 acc le_rfl

/-- The whole draw: the pixels a 1 bit lands on are flipped, the others kept, and the collision flag is raised exactly when
one of them was set. A sprite has at most 15 rows, so no two of its bits land on one pixel. -/
theorem drawRows_cases (x8 y8 : Nat) (sp : List Byte) (r0 : Nat) (acc : Framebuffer × Bool) (hl : sp.length ≤ 15) :
    let res := drawRows x8 y8 r0 sp acc
    (∀ px py, (SpriteLands x8 y8 r0 sp px py → res.1.pixel px py = !acc.1.pixel px py) ∧
      (¬ SpriteLands x8 y8 r0 sp px py → res.1.pixel px py = acc.1.pixel px py)) ∧
    (res.2 = true ↔ acc.2 = true ∨ ∃ px py, SpriteLands x8 y8 r0 sp px py ∧ acc.1.pixel px py = true) := by
  induction sp generalizing r0 acc with
  | nil => simp [drawRows, SpriteLands]
  | cons byte rest ih =>
    simp only [List.length_cons] at hl
    obtain ⟨a1, a2⟩ := drawRow_cases x8 (wrapY (y8 + r0)) byte acc
    obtain ⟨b1, b2⟩ := ih (r0 + 1) (drawRow x8 (wrapY (y8 + r0)) byte acc) (by omega)
    simp only [drawRows]
    have split : ∀ px py, SpriteLands x8 y8 r0 (byte :: rest) px py ↔
        RowLands x8 (wrapY (y8 + r0)) byte 8 px py ∨ SpriteLands x8 y8 (r0 + 1) rest px py := by
      intro px py
      constructor
      · rintro ⟨r, b, h, hb, hx, hy, hbit⟩
        rcases r with _ | r
        · exact .inl ⟨b, hb, hx, Fin.ext hy, hbit⟩
        · exact .inr ⟨r, b, by simpa using h, hb, hx, by rw [hy]; congr 1; omega, by simpa using hbit⟩
      · rintro (⟨b, hb, hx, hy, hbit⟩ | ⟨r, b, h, hb, hx, hy, hbit⟩)
        · exact ⟨0, b, by simp, hb, hx, by rw [hy]; rfl, hbit⟩
        · exact ⟨r + 1, b, by simpa using h, hb, hx, by rw [hy]; congr 1; omega, by simpa using hbit⟩
    have apart : ∀ px py, RowLands x8 (wrapY (y8 + r0)) byte 8 px py → ¬ SpriteLands x8 y8 (r0 + 1) rest px py := by
      rintro px py ⟨b, hb, hx, rfl, hbit⟩ ⟨r, b', h, hb', hx', hy', -⟩
      simp only [wrapY] at hy'
      omega
    refine ⟨fun px py => ⟨?_, ?_⟩, ?_⟩
    · rw [split]
      rintro (h | h)
      · rw [(b1 px py).2 (apart _ _ h), (a1 px py).1 h]
      · rw [(b1 px py).1 h, (a1 px py).2 fun h' => apart _ _ h' h]
    · rw [split]
      intro h
      rw [(b1 px py).2 fun h' => h (.inr h'), (a1 px py).2 fun h' => h (.inl h')]
    · rw [b2, a2]
      simp only [split]
      constructor
      · rintro ((h | ⟨px, py, h1, h2⟩) | ⟨px, py, h1, h2⟩)
        · exact .inl h
        · exact .inr ⟨px, py, .inl h1, h2⟩
        · exact .inr ⟨px, py, .inr h1, by rw [← h2]; exact ((a1 px py).2 fun h' => apart _ _ h' h1).symm⟩
      · rintro (h | ⟨px, py, h1 | h1, h2⟩)
        · exact .inl (.inl h)
        · exact .inl (.inr ⟨px, py, h1, h2⟩)
        · exact .inr ⟨px, py, h1, by rw [← h2]; exact (a1 px py).2 fun h' => apart _ _ h' h1⟩

/-- `FB_Draw` (R242), everything it answers. -/
theorem Framebuffer.draw_cases (fb : Framebuffer) (x8 y8 : Byte) {sprite : List Byte} (h : sprite.length ≤ 15) :
    (∀ px py, SpriteLands x8.toNat y8.toNat 0 sprite px py → (fb.draw x8 y8 sprite).1.pixel px py = !fb.pixel px py) ∧
    (∀ px py, ¬ SpriteLands x8.toNat y8.toNat 0 sprite px py → (fb.draw x8 y8 sprite).1.pixel px py = fb.pixel px py) ∧
    ((fb.draw x8 y8 sprite).2 = true ↔ ∃ px py, SpriteLands x8.toNat y8.toNat 0 sprite px py ∧ fb.pixel px py = true) := by
  obtain ⟨h1, h2⟩ := drawRows_cases x8.toNat y8.toNat sprite 0 (fb, false) h
  exact ⟨fun px py => (h1 px py).1, fun px py => (h1 px py).2, by simpa [Framebuffer.draw] using h2⟩

end Sys2Proof.Machine
end

