-- ==== Sys2Proof/Laws/State.lean ====
section
/-! SUPPORT. What each named update of the state leaves alone, one lemma per field, and the one field it writes. -/

namespace Sys2Proof.Machine

/-! ## setV writes v only -/

@[simp] theorem State.setV_i (s : State) (x : Reg) (b : Byte) : (s.setV x b).i = s.i := rfl
@[simp] theorem State.setV_pc (s : State) (x : Reg) (b : Byte) : (s.setV x b).pc = s.pc := rfl
@[simp] theorem State.setV_dt (s : State) (x : Reg) (b : Byte) : (s.setV x b).dt = s.dt := rfl
@[simp] theorem State.setV_st (s : State) (x : Reg) (b : Byte) : (s.setV x b).st = s.st := rfl
@[simp] theorem State.setV_stack (s : State) (x : Reg) (b : Byte) : (s.setV x b).stack = s.stack := rfl
@[simp] theorem State.setV_fb (s : State) (x : Reg) (b : Byte) : (s.setV x b).fb = s.fb := rfl
@[simp] theorem State.setV_mem (s : State) (x : Reg) (b : Byte) : (s.setV x b).mem = s.mem := rfl
@[simp] theorem State.setV_mode (s : State) (x : Reg) (b : Byte) : (s.setV x b).mode = s.mode := rfl
@[simp] theorem State.setV_enabled (s : State) (x : Reg) (b : Byte) : (s.setV x b).enabled = s.enabled := rfl
@[simp] theorem State.setV_strictUnknown (s : State) (x : Reg) (b : Byte) : (s.setV x b).strictUnknown = s.strictUnknown := rfl
@[simp] theorem State.setV_zeroWordPolicy (s : State) (x : Reg) (b : Byte) : (s.setV x b).zeroWordPolicy = s.zeroWordPolicy := rfl
@[simp] theorem State.setV_keys (s : State) (x : Reg) (b : Byte) : (s.setV x b).keys = s.keys := rfl
@[simp] theorem State.setV_schedule (s : State) (x : Reg) (b : Byte) : (s.setV x b).schedule = s.schedule := rfl
@[simp] theorem State.setV_rngDraws (s : State) (x : Reg) (b : Byte) : (s.setV x b).rngDraws = s.rngDraws := rfl
@[simp] theorem State.setV_diagLog (s : State) (x : Reg) (b : Byte) : (s.setV x b).diagLog = s.diagLog := rfl

/-! ## setRegs writes v only -/

@[simp] theorem State.setRegs_i (s : State) (bytes : List Byte) : (s.setRegs bytes).i = s.i := rfl
@[simp] theorem State.setRegs_pc (s : State) (bytes : List Byte) : (s.setRegs bytes).pc = s.pc := rfl
@[simp] theorem State.setRegs_dt (s : State) (bytes : List Byte) : (s.setRegs bytes).dt = s.dt := rfl
@[simp] theorem State.setRegs_st (s : State) (bytes : List Byte) : (s.setRegs bytes).st = s.st := rfl
@[simp] theorem State.setRegs_stack (s : State) (bytes : List Byte) : (s.setRegs bytes).stack = s.stack := rfl
@[simp] theorem State.setRegs_fb (s : State) (bytes : List Byte) : (s.setRegs bytes).fb = s.fb := rfl
@[simp] theorem State.setRegs_mem (s : State) (bytes : List Byte) : (s.setRegs bytes).mem = s.mem := rfl
@[simp] theorem State.setRegs_mode (s : State) (bytes : List Byte) : (s.setRegs bytes).mode = s.mode := rfl
@[simp] theorem State.setRegs_enabled (s : State) (bytes : List Byte) : (s.setRegs bytes).enabled = s.enabled := rfl
@[simp] theorem State.setRegs_strictUnknown (s : State) (bytes : List Byte) : (s.setRegs bytes).strictUnknown = s.strictUnknown := rfl
@[simp] theorem State.setRegs_zeroWordPolicy (s : State) (bytes : List Byte) : (s.setRegs bytes).zeroWordPolicy = s.zeroWordPolicy := rfl
@[simp] theorem State.setRegs_keys (s : State) (bytes : List Byte) : (s.setRegs bytes).keys = s.keys := rfl
@[simp] theorem State.setRegs_schedule (s : State) (bytes : List Byte) : (s.setRegs bytes).schedule = s.schedule := rfl
@[simp] theorem State.setRegs_rngDraws (s : State) (bytes : List Byte) : (s.setRegs bytes).rngDraws = s.rngDraws := rfl
@[simp] theorem State.setRegs_diagLog (s : State) (bytes : List Byte) : (s.setRegs bytes).diagLog = s.diagLog := rfl

/-! ## setFlag writes v only -/

@[simp] theorem State.setFlag_i (s : State) (f : Bool) : (s.setFlag f).i = s.i := rfl
@[simp] theorem State.setFlag_pc (s : State) (f : Bool) : (s.setFlag f).pc = s.pc := rfl
@[simp] theorem State.setFlag_dt (s : State) (f : Bool) : (s.setFlag f).dt = s.dt := rfl
@[simp] theorem State.setFlag_st (s : State) (f : Bool) : (s.setFlag f).st = s.st := rfl
@[simp] theorem State.setFlag_stack (s : State) (f : Bool) : (s.setFlag f).stack = s.stack := rfl
@[simp] theorem State.setFlag_fb (s : State) (f : Bool) : (s.setFlag f).fb = s.fb := rfl
@[simp] theorem State.setFlag_mem (s : State) (f : Bool) : (s.setFlag f).mem = s.mem := rfl
@[simp] theorem State.setFlag_mode (s : State) (f : Bool) : (s.setFlag f).mode = s.mode := rfl
@[simp] theorem State.setFlag_enabled (s : State) (f : Bool) : (s.setFlag f).enabled = s.enabled := rfl
@[simp] theorem State.setFlag_strictUnknown (s : State) (f : Bool) : (s.setFlag f).strictUnknown = s.strictUnknown := rfl
@[simp] theorem State.setFlag_zeroWordPolicy (s : State) (f : Bool) : (s.setFlag f).zeroWordPolicy = s.zeroWordPolicy := rfl
@[simp] theorem State.setFlag_keys (s : State) (f : Bool) : (s.setFlag f).keys = s.keys := rfl
@[simp] theorem State.setFlag_schedule (s : State) (f : Bool) : (s.setFlag f).schedule = s.schedule := rfl
@[simp] theorem State.setFlag_rngDraws (s : State) (f : Bool) : (s.setFlag f).rngDraws = s.rngDraws := rfl
@[simp] theorem State.setFlag_diagLog (s : State) (f : Bool) : (s.setFlag f).diagLog = s.diagLog := rfl

/-! ## setResult writes v only -/

@[simp] theorem State.setResult_i (s : State) (x : Reg) (r : Byte) (f : Bool) : (s.setResult x r f).i = s.i := rfl
@[simp] theorem State.setResult_pc (s : State) (x : Reg) (r : Byte) (f : Bool) : (s.setResult x r f).pc = s.pc := rfl
@[simp] theorem State.setResult_dt (s : State) (x : Reg) (r : Byte) (f : Bool) : (s.setResult x r f).dt = s.dt := rfl
@[simp] theorem State.setResult_st (s : State) (x : Reg) (r : Byte) (f : Bool) : (s.setResult x r f).st = s.st := rfl
@[simp] theorem State.setResult_stack (s : State) (x : Reg) (r : Byte) (f : Bool) : (s.setResult x r f).stack = s.stack := rfl
@[simp] theorem State.setResult_fb (s : State) (x : Reg) (r : Byte) (f : Bool) : (s.setResult x r f).fb = s.fb := rfl
@[simp] theorem State.setResult_mem (s : State) (x : Reg) (r : Byte) (f : Bool) : (s.setResult x r f).mem = s.mem := rfl
@[simp] theorem State.setResult_mode (s : State) (x : Reg) (r : Byte) (f : Bool) : (s.setResult x r f).mode = s.mode := rfl
@[simp] theorem State.setResult_enabled (s : State) (x : Reg) (r : Byte) (f : Bool) : (s.setResult x r f).enabled = s.enabled := rfl
@[simp] theorem State.setResult_strictUnknown (s : State) (x : Reg) (r : Byte) (f : Bool) : (s.setResult x r f).strictUnknown = s.strictUnknown := rfl
@[simp] theorem State.setResult_zeroWordPolicy (s : State) (x : Reg) (r : Byte) (f : Bool) : (s.setResult x r f).zeroWordPolicy = s.zeroWordPolicy := rfl
@[simp] theorem State.setResult_keys (s : State) (x : Reg) (r : Byte) (f : Bool) : (s.setResult x r f).keys = s.keys := rfl
@[simp] theorem State.setResult_schedule (s : State) (x : Reg) (r : Byte) (f : Bool) : (s.setResult x r f).schedule = s.schedule := rfl
@[simp] theorem State.setResult_rngDraws (s : State) (x : Reg) (r : Byte) (f : Bool) : (s.setResult x r f).rngDraws = s.rngDraws := rfl
@[simp] theorem State.setResult_diagLog (s : State) (x : Reg) (r : Byte) (f : Bool) : (s.setResult x r f).diagLog = s.diagLog := rfl

/-! ## faultWith writes mode only -/

@[simp] theorem State.faultWith_v (s : State) (e : FatalError) : (s.faultWith e).v = s.v := rfl
@[simp] theorem State.faultWith_i (s : State) (e : FatalError) : (s.faultWith e).i = s.i := rfl
@[simp] theorem State.faultWith_pc (s : State) (e : FatalError) : (s.faultWith e).pc = s.pc := rfl
@[simp] theorem State.faultWith_dt (s : State) (e : FatalError) : (s.faultWith e).dt = s.dt := rfl
@[simp] theorem State.faultWith_st (s : State) (e : FatalError) : (s.faultWith e).st = s.st := rfl
@[simp] theorem State.faultWith_stack (s : State) (e : FatalError) : (s.faultWith e).stack = s.stack := rfl
@[simp] theorem State.faultWith_fb (s : State) (e : FatalError) : (s.faultWith e).fb = s.fb := rfl
@[simp] theorem State.faultWith_mem (s : State) (e : FatalError) : (s.faultWith e).mem = s.mem := rfl
@[simp] theorem State.faultWith_enabled (s : State) (e : FatalError) : (s.faultWith e).enabled = s.enabled := rfl
@[simp] theorem State.faultWith_strictUnknown (s : State) (e : FatalError) : (s.faultWith e).strictUnknown = s.strictUnknown := rfl
@[simp] theorem State.faultWith_zeroWordPolicy (s : State) (e : FatalError) : (s.faultWith e).zeroWordPolicy = s.zeroWordPolicy := rfl
@[simp] theorem State.faultWith_keys (s : State) (e : FatalError) : (s.faultWith e).keys = s.keys := rfl
@[simp] theorem State.faultWith_schedule (s : State) (e : FatalError) : (s.faultWith e).schedule = s.schedule := rfl
@[simp] theorem State.faultWith_rngDraws (s : State) (e : FatalError) : (s.faultWith e).rngDraws = s.rngDraws := rfl
@[simp] theorem State.faultWith_diagLog (s : State) (e : FatalError) : (s.faultWith e).diagLog = s.diagLog := rfl

/-! ## skipIf writes pc only -/

@[simp] theorem State.skipIf_v (s : State) (c : Bool) : (s.skipIf c).v = s.v := by cases c <;> rfl
@[simp] theorem State.skipIf_i (s : State) (c : Bool) : (s.skipIf c).i = s.i := by cases c <;> rfl
@[simp] theorem State.skipIf_dt (s : State) (c : Bool) : (s.skipIf c).dt = s.dt := by cases c <;> rfl
@[simp] theorem State.skipIf_st (s : State) (c : Bool) : (s.skipIf c).st = s.st := by cases c <;> rfl
@[simp] theorem State.skipIf_stack (s : State) (c : Bool) : (s.skipIf c).stack = s.stack := by cases c <;> rfl
@[simp] theorem State.skipIf_fb (s : State) (c : Bool) : (s.skipIf c).fb = s.fb := by cases c <;> rfl
@[simp] theorem State.skipIf_mem (s : State) (c : Bool) : (s.skipIf c).mem = s.mem := by cases c <;> rfl
@[simp] theorem State.skipIf_mode (s : State) (c : Bool) : (s.skipIf c).mode = s.mode := by cases c <;> rfl
@[simp] theorem State.skipIf_enabled (s : State) (c : Bool) : (s.skipIf c).enabled = s.enabled := by cases c <;> rfl
@[simp] theorem State.skipIf_strictUnknown (s : State) (c : Bool) : (s.skipIf c).strictUnknown = s.strictUnknown := by cases c <;> rfl
@[simp] theorem State.skipIf_zeroWordPolicy (s : State) (c : Bool) : (s.skipIf c).zeroWordPolicy = s.zeroWordPolicy := by cases c <;> rfl
@[simp] theorem State.skipIf_keys (s : State) (c : Bool) : (s.skipIf c).keys = s.keys := by cases c <;> rfl
@[simp] theorem State.skipIf_schedule (s : State) (c : Bool) : (s.skipIf c).schedule = s.schedule := by cases c <;> rfl
@[simp] theorem State.skipIf_rngDraws (s : State) (c : Bool) : (s.skipIf c).rngDraws = s.rngDraws := by cases c <;> rfl
@[simp] theorem State.skipIf_diagLog (s : State) (c : Bool) : (s.skipIf c).diagLog = s.diagLog := by cases c <;> rfl

/-! ## advancePc writes pc only -/

@[simp] theorem State.advancePc_v (s : State) : s.advancePc.v = s.v := rfl
@[simp] theorem State.advancePc_i (s : State) : s.advancePc.i = s.i := rfl
@[simp] theorem State.advancePc_dt (s : State) : s.advancePc.dt = s.dt := rfl
@[simp] theorem State.advancePc_st (s : State) : s.advancePc.st = s.st := rfl
@[simp] theorem State.advancePc_stack (s : State) : s.advancePc.stack = s.stack := rfl
@[simp] theorem State.advancePc_fb (s : State) : s.advancePc.fb = s.fb := rfl
@[simp] theorem State.advancePc_mem (s : State) : s.advancePc.mem = s.mem := rfl
@[simp] theorem State.advancePc_mode (s : State) : s.advancePc.mode = s.mode := rfl
@[simp] theorem State.advancePc_enabled (s : State) : s.advancePc.enabled = s.enabled := rfl
@[simp] theorem State.advancePc_strictUnknown (s : State) : s.advancePc.strictUnknown = s.strictUnknown := rfl
@[simp] theorem State.advancePc_zeroWordPolicy (s : State) : s.advancePc.zeroWordPolicy = s.zeroWordPolicy := rfl
@[simp] theorem State.advancePc_keys (s : State) : s.advancePc.keys = s.keys := rfl
@[simp] theorem State.advancePc_schedule (s : State) : s.advancePc.schedule = s.schedule := rfl
@[simp] theorem State.advancePc_rngDraws (s : State) : s.advancePc.rngDraws = s.rngDraws := rfl
@[simp] theorem State.advancePc_diagLog (s : State) : s.advancePc.diagLog = s.diagLog := rfl

/-! ## popEvent writes schedule only -/

@[simp] theorem State.popEvent_v (s : State) : s.popEvent.v = s.v := rfl
@[simp] theorem State.popEvent_i (s : State) : s.popEvent.i = s.i := rfl
@[simp] theorem State.popEvent_pc (s : State) : s.popEvent.pc = s.pc := rfl
@[simp] theorem State.popEvent_dt (s : State) : s.popEvent.dt = s.dt := rfl
@[simp] theorem State.popEvent_st (s : State) : s.popEvent.st = s.st := rfl
@[simp] theorem State.popEvent_stack (s : State) : s.popEvent.stack = s.stack := rfl
@[simp] theorem State.popEvent_fb (s : State) : s.popEvent.fb = s.fb := rfl
@[simp] theorem State.popEvent_mem (s : State) : s.popEvent.mem = s.mem := rfl
@[simp] theorem State.popEvent_mode (s : State) : s.popEvent.mode = s.mode := rfl
@[simp] theorem State.popEvent_enabled (s : State) : s.popEvent.enabled = s.enabled := rfl
@[simp] theorem State.popEvent_strictUnknown (s : State) : s.popEvent.strictUnknown = s.strictUnknown := rfl
@[simp] theorem State.popEvent_zeroWordPolicy (s : State) : s.popEvent.zeroWordPolicy = s.zeroWordPolicy := rfl
@[simp] theorem State.popEvent_keys (s : State) : s.popEvent.keys = s.keys := rfl
@[simp] theorem State.popEvent_rngDraws (s : State) : s.popEvent.rngDraws = s.rngDraws := rfl
@[simp] theorem State.popEvent_diagLog (s : State) : s.popEvent.diagLog = s.diagLog := rfl

/-! ## drawn writes rngDraws only -/

@[simp] theorem State.drawn_v (s : State) : s.drawn.v = s.v := rfl
@[simp] theorem State.drawn_i (s : State) : s.drawn.i = s.i := rfl
@[simp] theorem State.drawn_pc (s : State) : s.drawn.pc = s.pc := rfl
@[simp] theorem State.drawn_dt (s : State) : s.drawn.dt = s.dt := rfl
@[simp] theorem State.drawn_st (s : State) : s.drawn.st = s.st := rfl
@[simp] theorem State.drawn_stack (s : State) : s.drawn.stack = s.stack := rfl
@[simp] theorem State.drawn_fb (s : State) : s.drawn.fb = s.fb := rfl
@[simp] theorem State.drawn_mem (s : State) : s.drawn.mem = s.mem := rfl
@[simp] theorem State.drawn_mode (s : State) : s.drawn.mode = s.mode := rfl
@[simp] theorem State.drawn_enabled (s : State) : s.drawn.enabled = s.enabled := rfl
@[simp] theorem State.drawn_strictUnknown (s : State) : s.drawn.strictUnknown = s.strictUnknown := rfl
@[simp] theorem State.drawn_zeroWordPolicy (s : State) : s.drawn.zeroWordPolicy = s.zeroWordPolicy := rfl
@[simp] theorem State.drawn_keys (s : State) : s.drawn.keys = s.keys := rfl
@[simp] theorem State.drawn_schedule (s : State) : s.drawn.schedule = s.schedule := rfl
@[simp] theorem State.drawn_diagLog (s : State) : s.drawn.diagLog = s.diagLog := rfl

/-! ## emitDiag writes diagLog only -/

@[simp] theorem State.emitDiag_v (s : State) (word addr : Word) : (s.emitDiag word addr).v = s.v := rfl
@[simp] theorem State.emitDiag_i (s : State) (word addr : Word) : (s.emitDiag word addr).i = s.i := rfl
@[simp] theorem State.emitDiag_pc (s : State) (word addr : Word) : (s.emitDiag word addr).pc = s.pc := rfl
@[simp] theorem State.emitDiag_dt (s : State) (word addr : Word) : (s.emitDiag word addr).dt = s.dt := rfl
@[simp] theorem State.emitDiag_st (s : State) (word addr : Word) : (s.emitDiag word addr).st = s.st := rfl
@[simp] theorem State.emitDiag_stack (s : State) (word addr : Word) : (s.emitDiag word addr).stack = s.stack := rfl
@[simp] theorem State.emitDiag_fb (s : State) (word addr : Word) : (s.emitDiag word addr).fb = s.fb := rfl
@[simp] theorem State.emitDiag_mem (s : State) (word addr : Word) : (s.emitDiag word addr).mem = s.mem := rfl
@[simp] theorem State.emitDiag_mode (s : State) (word addr : Word) : (s.emitDiag word addr).mode = s.mode := rfl
@[simp] theorem State.emitDiag_enabled (s : State) (word addr : Word) : (s.emitDiag word addr).enabled = s.enabled := rfl
@[simp] theorem State.emitDiag_strictUnknown (s : State) (word addr : Word) : (s.emitDiag word addr).strictUnknown = s.strictUnknown := rfl
@[simp] theorem State.emitDiag_zeroWordPolicy (s : State) (word addr : Word) : (s.emitDiag word addr).zeroWordPolicy = s.zeroWordPolicy := rfl
@[simp] theorem State.emitDiag_keys (s : State) (word addr : Word) : (s.emitDiag word addr).keys = s.keys := rfl
@[simp] theorem State.emitDiag_schedule (s : State) (word addr : Word) : (s.emitDiag word addr).schedule = s.schedule := rfl
@[simp] theorem State.emitDiag_rngDraws (s : State) (word addr : Word) : (s.emitDiag word addr).rngDraws = s.rngDraws := rfl

/-! ## The field each update writes -/

theorem State.setV_v (s : State) (x : Reg) (b : Byte) : (s.setV x b).v = s.v.set x.val b := rfl
@[simp] theorem State.faultWith_mode (s : State) (e : FatalError) : (s.faultWith e).mode = .faulted e := rfl
@[simp] theorem State.skipIf_pc (s : State) (c : Bool) : (s.skipIf c).pc = if c then s.pc + 2 else s.pc := by
  cases c <;> rfl
@[simp] theorem State.advancePc_pc (s : State) : s.advancePc.pc = s.pc + 2 := rfl
@[simp] theorem State.popEvent_schedule (s : State) : s.popEvent.schedule = s.schedule.tail := rfl
@[simp] theorem State.drawn_rngDraws (s : State) : s.drawn.rngDraws = s.rngDraws + 1 := rfl
@[simp] theorem State.emitDiag_diagLog (s : State) (word addr : Word) :
    (s.emitDiag word addr).diagLog = s.diagLog ++ [⟨word, addr⟩] := rfl

/-! ## Each update as a record update, for statements that say "every other field is the same" -/

theorem State.setV_only (s : State) (x : Reg) (b : Byte) : s.setV x b = { s with v := (s.setV x b).v } := rfl
theorem State.setRegs_only (s : State) (bytes : List Byte) : s.setRegs bytes = { s with v := (s.setRegs bytes).v } := rfl
theorem State.setFlag_only (s : State) (f : Bool) : s.setFlag f = { s with v := (s.setFlag f).v } := rfl
theorem State.setResult_only (s : State) (x : Reg) (r : Byte) (f : Bool) :
    s.setResult x r f = { s with v := (s.setResult x r f).v } := rfl
theorem State.skipIf_only (s : State) (c : Bool) : s.skipIf c = { s with pc := (s.skipIf c).pc } := by
  cases c <;> rfl

/-- The fetch address is PC before the advance (40_step_and_control.md R131). -/
@[simp] theorem State.advancePc_fetchAddr (s : State) : s.advancePc.fetchAddr = s.pc := by
  simp [State.advancePc, State.fetchAddr]

end Sys2Proof.Machine
end

