-- ==== Sys2Proof/Laws/Outcomes.lean ====
section
/-! SUPPORT. What each shared operation answers: the range check, the call stack, one step of the engine and one step of
the machine, each with every case it has. -/

namespace Sys2Proof.Machine

theorem checkRange_inside {a n : Nat} (h : n = 0 ∨ a + n ≤ 0x1000) : checkRange a n = none := by
  unfold checkRange topAddr
  rw [if_neg (by omega)]

theorem checkRange_outside {a n : Nat} (hn : 0 < n) (h : 0x1000 < a + n) : checkRange a n = some (max a 0x1000) := by
  unfold checkRange topAddr
  rw [if_pos (by omega)]

theorem withRange_inside {a n : Nat} (h : n = 0 ∨ a + n ≤ 0x1000) (s ok : State) : withRange a n s ok = .next ok := by
  rw [withRange, checkRange_inside h]

theorem withRange_outside {a n : Nat} (hn : 0 < n) (h : 0x1000 < a + n) (s ok : State) :
    withRange a n s ok = .next (s.faultWith (.addressOutOfRange (max a 0x1000) s.fetchAddr)) := by
  rw [withRange, checkRange_outside hn h]; rfl

/-- A range-checked operation answers its own result, or AddressOutOfRange with an address above 0xFFF. -/
theorem withRange_cases (a n : Nat) (s ok : State) :
    ((n = 0 ∨ a + n ≤ 0x1000) ∧ withRange a n s ok = .next ok) ∨
    (0 < n ∧ 0x1000 < a + n ∧ withRange a n s ok = .next (s.faultWith (.addressOutOfRange (max a 0x1000) s.fetchAddr))) := by
  by_cases h : n = 0 ∨ a + n ≤ 0x1000
  · exact .inl ⟨h, withRange_inside h s ok⟩
  · exact .inr ⟨by omega, by omega, withRange_outside (by omega) (by omega) s ok⟩

theorem pushAndJump_room {s : State} (h : s.stack.length < 16) (target : Word) :
    pushAndJump target s = .next { s with stack := s.stack ++ [s.pc], pc := target } := by
  rw [pushAndJump, if_neg (by unfold stackDepth; omega)]

theorem pushAndJump_full {s : State} (h : 16 ≤ s.stack.length) (target : Word) :
    pushAndJump target s = .next (s.faultWith (.stackOverflow s.fetchAddr)) := by
  rw [pushAndJump, if_pos (by unfold stackDepth; omega), raise]

theorem popIntoPc_empty {s : State} (h : s.stack = []) :
    popIntoPc s = .next (s.faultWith (.stackUnderflow s.fetchAddr)) := by
  rw [popIntoPc, h]; rfl

theorem popIntoPc_top {s : State} {rest : List Word} {top : Word} (h : s.stack = rest ++ [top]) :
    popIntoPc s = .next { s with pc := top, stack := rest } := by
  rw [popIntoPc, h]; simp

theorem fetch_ok {s : State} (h : s.pc.toNat ≤ 0xFFE) : fetch s = .ok (s.mem.fetchWord s.pc.toNat) := by
  rw [fetch, if_neg (by unfold topAddr; omega), if_neg (by unfold topAddr; omega)]

theorem fetch_fault {s : State} (h : 0xFFF ≤ s.pc.toNat) :
    fetch s = .error (.addressOutOfRange (max s.pc.toNat 0x1000) s.pc) := by
  unfold fetch topAddr
  by_cases h1 : 0xFFF < s.pc.toNat
  · rw [if_pos h1]; congr 2; omega
  · rw [if_neg h1, if_pos (by omega)]; congr 2; omega

theorem canStep_iff (s : State) : s.canStep = true ↔ s.enabled = true ∧ s.mode = .running := by
  simp [State.canStep]

theorem engineStep_idle {s : State} (h : ¬ (s.enabled = true ∧ s.mode = .running)) : engineStep s = .next s := by
  rw [engineStep, if_neg (by rwa [canStep_iff])]

theorem engineStep_run {s : State} (h : s.enabled = true ∧ s.mode = .running) (hpc : s.pc.toNat ≤ 0xFFE) :
    engineStep s = exec (decodeWord (s.mem.fetchWord s.pc.toNat)) s.advancePc := by
  rw [engineStep, if_pos (by rwa [canStep_iff]), fetch_ok hpc]

theorem engineStep_fetchFault {s : State} (h : s.enabled = true ∧ s.mode = .running) (hpc : 0xFFF ≤ s.pc.toNat) :
    engineStep s = .next (s.faultWith (.addressOutOfRange (max s.pc.toNat 0x1000) s.pc)) := by
  rw [engineStep, if_pos (by rwa [canStep_iff]), fetch_fault hpc]; rfl

/-- Everything one step of the engine can do. -/
theorem engineStep_cases (s : State) :
    (¬ (s.enabled = true ∧ s.mode = .running) ∧ engineStep s = .next s) ∨
    ((s.enabled = true ∧ s.mode = .running) ∧ 0xFFF ≤ s.pc.toNat ∧
      engineStep s = .next (s.faultWith (.addressOutOfRange (max s.pc.toNat 0x1000) s.pc))) ∨
    ((s.enabled = true ∧ s.mode = .running) ∧ s.pc.toNat ≤ 0xFFE ∧
      engineStep s = exec (decodeWord (s.mem.fetchWord s.pc.toNat)) s.advancePc) := by
  by_cases h : s.enabled = true ∧ s.mode = .running
  · by_cases hpc : s.pc.toNat ≤ 0xFFE
    · exact .inr (.inr ⟨h, hpc, engineStep_run h hpc⟩)
    · exact .inr (.inl ⟨h, by omega, engineStep_fetchFault h (by omega)⟩)
  · exact .inl ⟨h, engineStep_idle h⟩

/-- A step of the machine applies the event that comes next. -/
theorem step_eq (s : State) : step s = applyEvent s.nextEvent s.popEvent := rfl

theorem nextEvent_cons {s : State} {e : Event} {rest : List Event} (h : s.schedule = e :: rest) : s.nextEvent = e := by
  rw [State.nextEvent, h]; rfl

theorem nextEvent_nil {s : State} (h : s.schedule = []) : s.nextEvent = .step := by
  rw [State.nextEvent, h]; rfl

/-- What a step of the machine answers on each event other than a step event. -/
theorem step_event_cases {s t : State} (h : step s = .next t) :
    (s.nextEvent = .step ∧ engineStep s.popEvent = .next t) ∨
    (s.nextEvent = .tickDt ∧ t = tickDt s.popEvent) ∨
    (s.nextEvent = .tickSt ∧ t = tickSt s.popEvent) ∨
    (∃ id, s.nextEvent = .keyDown id ∧ t = keyDown id s.popEvent) ∨
    (∃ id, s.nextEvent = .keyUp id ∧ t = keyUp id s.popEvent) ∨
    (∃ rom, s.nextEvent = .reset rom ∧ t = resetWith rom s.popEvent) ∨
    (s.nextEvent = .stop ∧ t = stop s.popEvent) ∨
    (s.nextEvent = .start ∧ t = start s.popEvent) := by
  rw [step_eq] at h
  cases he : s.nextEvent with
  | step => rw [he] at h; exact .inl ⟨rfl, h⟩
  | tickDt => rw [he] at h; injection h with h; simp [h]
  | tickSt => rw [he] at h; injection h with h; simp [h]
  | keyDown id => rw [he] at h; injection h with h; simp [h]
  | keyUp id => rw [he] at h; injection h with h; simp [h]
  | reset rom => rw [he] at h; injection h with h; simp [h]
  | stop => rw [he] at h; injection h with h; simp [h]
  | start => rw [he] at h; injection h with h; simp [h]

/-- The end of a wait, in every case. -/
theorem endWait_cases (id : KeyId) (wasDown : Bool) (s : State) :
    (∃ x, s.mode = .waiting x ∧ s.enabled = true ∧ wasDown = false ∧
      endWait id wasDown s = { s.setV x (keyByte id) with mode := .running }) ∨
    ((∀ x, s.mode = .waiting x → s.enabled = true → wasDown = true) ∧ endWait id wasDown s = s) := by
  unfold endWait
  split
  · rename_i x hm
    split
    · rename_i hc
      simp only [Bool.and_eq_true, Bool.not_eq_true'] at hc
      exact .inl ⟨x, hm, hc.1, hc.2, rfl⟩
    · rename_i hc
      refine .inr ⟨fun _ _ he => ?_, rfl⟩
      simpa [he] using hc
  · rename_i hm; exact .inr ⟨fun x hx => by simp [hm] at hx, rfl⟩
  · rename_i hm; exact .inr ⟨fun x hx => by simp [hm] at hx, rfl⟩

end Sys2Proof.Machine
end

