-- ==== Sys2Proof/Laws/Registers.lean ====
section
/-! SUPPORT. Reading a register after each way of writing one. -/

namespace Sys2Proof.Machine

/-- Registers read the same in states whose register files are equal. -/
theorem State.getV_congr {s t : State} (h : t.v = s.v) (x : Reg) : t.getV x = s.getV x := by
  simp only [State.getV, h]

theorem State.getV_setV (s : State) (x y : Reg) (b : Byte) : (s.setV x b).getV y = if y = x then b else s.getV y := by
  simp only [State.getV, State.setV, Vector.getElem_set]
  by_cases h : y = x
  · simp [h]
  · rw [if_neg h, if_neg (fun e => h (Fin.ext e.symm))]

@[simp] theorem State.getV_setV_same (s : State) (x : Reg) (b : Byte) : (s.setV x b).getV x = b := by
  simp [State.getV_setV]

theorem State.getV_setV_ne (s : State) {x y : Reg} (h : y ≠ x) (b : Byte) : (s.setV x b).getV y = s.getV y := by
  simp [State.getV_setV, h]

@[simp] theorem State.getV_setFlag_vf (s : State) (f : Bool) : (s.setFlag f).getV regVF = flagByte f := by
  simp [State.setFlag]

theorem State.getV_setFlag_ne (s : State) {y : Reg} (h : y ≠ regVF) (f : Bool) : (s.setFlag f).getV y = s.getV y :=
  s.getV_setV_ne h _

/-- The flag is written last (10_state.md R32): VF reads as the flag whatever `x` is. -/
@[simp] theorem State.getV_setResult_vf (s : State) (x : Reg) (r : Byte) (f : Bool) :
    (s.setResult x r f).getV regVF = flagByte f := by
  simp [State.setResult]

theorem State.getV_setResult_dest (s : State) {x : Reg} (h : x ≠ regVF) (r : Byte) (f : Bool) :
    (s.setResult x r f).getV x = r := by
  simp [State.setResult, State.getV_setFlag_ne, h]

theorem State.getV_setResult_ne (s : State) {x y : Reg} (hx : y ≠ x) (hf : y ≠ regVF) (r : Byte) (f : Bool) :
    (s.setResult x r f).getV y = s.getV y := by
  rw [State.setResult, State.getV_setFlag_ne _ hf, State.getV_setV_ne _ hx]

theorem State.getV_setRegs (s : State) (bytes : List Byte) (y : Reg) :
    (s.setRegs bytes).getV y = bytes.getD y.val (s.getV y) := by
  simp [State.getV, State.setRegs]

theorem flagByte_toNat (f : Bool) : (flagByte f).toNat = if f then 1 else 0 := by
  cases f <;> rfl

theorem State.regsUpTo_length (s : State) (x : Reg) : (s.regsUpTo x).length = x.val + 1 := by
  simp only [State.regsUpTo, List.length_take, Vector.length_toList]; omega

theorem State.regsUpTo_getElem (s : State) (x k : Reg) (h : k.val < (s.regsUpTo x).length) :
    (s.regsUpTo x)[k.val] = s.getV k := by
  simp [State.regsUpTo, State.getV]

/-- Two register files are equal when every register reads the same. -/
theorem State.v_ext {s t : State} (h : ∀ r, t.getV r = s.getV r) : t.v = s.v := by
  apply Vector.ext
  intro k hk
  exact h ⟨k, hk⟩

end Sys2Proof.Machine
end

