-- ==== Sys2Proof/Laws/Exec.lean ====
section
/-! SUPPORT. What every instruction answers, once: the error it raises, or else its effect. Proofs over all instructions
cite `exec_eq` and case on `errorOf` and `effect` instead of unfolding the meanings. -/

namespace Sys2Proof.Machine

/-- The AddressOutOfRange of a range check, if it fails. -/
def rangeError (a n : Nat) (s : State) : Option FatalError :=
  (checkRange a n).map fun bad => .addressOutOfRange bad s.fetchAddr

/-- The fatal error the instruction raises in this state, if any (60_exceptions.md R300). -/
def errorOf (i : Instr) (s : State) : Option FatalError :=
  match i with
  | .ret => if s.stack = [] then some (.stackUnderflow s.fetchAddr) else none
  | .call _ => if 16 ≤ s.stack.length then some (.stackOverflow s.fetchAddr) else none
  | .drw _ _ n => rangeError s.dataAddr n.val s
  | .ldBVx _ => rangeError s.dataAddr 3 s
  | .ldMemVx x => rangeError s.dataAddr (x.val + 1) s
  | .ldVxMem x => rangeError s.dataAddr (x.val + 1) s
  | .unknown op => if s.strictUnknown then some (.unknownOpcode op s.fetchAddr) else none
  | .zero | .cls | .jp _ | .seVxKk _ _ | .sneVxKk _ _ | .seVxVy _ _ | .ldVxKk _ _ | .addVxKk _ _
  | .ldVxVy _ _ | .orVxVy _ _ | .andVxVy _ _ | .xorVxVy _ _ | .addVxVy _ _ | .subVxVy _ _ | .shr _ _ | .subnVxVy _ _
  | .shl _ _ | .sneVxVy _ _ | .ldINnn _ | .jpV0Nnn _ | .rnd _ _ | .skp _ | .sknp _ | .ldVxDt _
  | .ldVxK _ | .ldDtVx _ | .ldStVx _ | .addIVx _ | .ldFVx _ => none

/-- The state the instruction leads to when it raises no error. -/
def effect (i : Instr) (s : State) : State :=
  match i with
  | .zero => if s.zeroWordPolicy = .hold then { s with pc := s.fetchAddr } else s
  | .cls => { s with fb := Framebuffer.cleared }
  | .ret => { s with pc := s.stack.getLastD 0, stack := s.stack.dropLast }
  | .jp nnn => { s with pc := zext16 nnn }
  | .call nnn => { s with stack := s.stack ++ [s.pc], pc := zext16 nnn }
  | .seVxKk x kk => s.skipIf (s.getV x == kk)
  | .sneVxKk x kk => s.skipIf (s.getV x != kk)
  | .seVxVy x y => s.skipIf (s.getV x == s.getV y)
  | .ldVxKk x kk => s.setV x kk
  | .addVxKk x kk => s.setV x (s.getV x + kk)
  | .ldVxVy x y => s.setV x (s.getV y)
  | .orVxVy x y => s.setV x (s.getV x ||| s.getV y)
  | .andVxVy x y => s.setV x (s.getV x &&& s.getV y)
  | .xorVxVy x y => s.setV x (s.getV x ^^^ s.getV y)
  | .addVxVy x y => s.setResult x (s.getV x + s.getV y) (carryFlag (s.getV x) (s.getV y))
  | .subVxVy x y => s.setResult x (s.getV x - s.getV y) (greaterFlag (s.getV x) (s.getV y))
  | .shr x _ => s.setResult x (s.getV x >>> 1) (lowBitFlag (s.getV x))
  | .subnVxVy x y => s.setResult x (s.getV y - s.getV x) (greaterFlag (s.getV y) (s.getV x))
  | .shl x _ => s.setResult x (s.getV x <<< 1) (highBitFlag (s.getV x))
  | .sneVxVy x y => s.skipIf (s.getV x != s.getV y)
  | .ldINnn nnn => { s with i := zext16 nnn }
  | .jpV0Nnn nnn => { s with pc := offsetTarget nnn (s.getV regV0) }
  | .rnd x kk => s.drawn.setV x (s.rngInput &&& kk)
  | .drw x y n =>
    { s with fb := (s.fb.draw (s.getV x) (s.getV y) (s.spriteAt n)).1 }.setFlag
      (s.fb.draw (s.getV x) (s.getV y) (s.spriteAt n)).2
  | .skp x => s.skipIf (s.pressed (s.getV x))
  | .sknp x => s.skipIf (!s.pressed (s.getV x))
  | .ldVxDt x => s.setV x s.dt
  | .ldVxK x => { s with mode := .waiting x }
  | .ldDtVx x => { s with dt := s.getV x }
  | .ldStVx x => { s with st := s.getV x }
  | .addIVx x => { s with i := s.i + (s.getV x).setWidth 16 }
  | .ldFVx x => { s with i := glyphAddr (s.getV x) }
  | .ldBVx x => { s with mem := s.mem.writeBytes s.dataAddr (decimalDigits (s.getV x)) }
  | .ldMemVx x => { s with mem := s.mem.writeBytes s.dataAddr (s.regsUpTo x) }
  | .ldVxMem x => s.setRegs (s.mem.readBytes s.dataAddr (x.val + 1))
  | .unknown op => s.emitDiag op s.fetchAddr

theorem withRange_eq (a n : Nat) (s ok : State) :
    withRange a n s ok = .next (match rangeError a n s with | some e => s.faultWith e | none => ok) := by
  unfold withRange rangeError
  cases checkRange a n <;> rfl

/-- A range check fails with the first address above 0xFFF, and only for a range that is not empty. -/
theorem rangeError_some {a n : Nat} {s : State} {e : FatalError} (h : rangeError a n s = some e) :
    0 < n ∧ 0x1000 < a + n ∧ e = .addressOutOfRange (max a 0x1000) s.fetchAddr := by
  unfold rangeError at h
  by_cases hin : n = 0 ∨ a + n ≤ 0x1000
  · simp [checkRange_inside hin] at h
  · rw [checkRange_outside (by omega) (by omega)] at h
    simp only [Option.map_some, Option.some.injEq] at h
    exact ⟨by omega, by omega, h.symm⟩

theorem rangeError_none {a n : Nat} {s : State} (h : rangeError a n s = none) : n = 0 ∨ a + n ≤ 0x1000 := by
  by_contra hin
  rw [rangeError, checkRange_outside (by omega) (by omega)] at h
  simp at h

/-- Every instruction answers a next state: the one its error leaves, or its effect. -/
theorem exec_eq (i : Instr) (s : State) :
    exec i s = .next (match errorOf i s with | some e => s.faultWith e | none => effect i s) := by
  cases i with
  | ret =>
    rcases List.eq_nil_or_concat s.stack with h | ⟨l, a, h⟩
    · simp [exec, execRet, popIntoPc, errorOf, h, raise]
    · simp [exec, execRet, popIntoPc, errorOf, effect, h, List.concat_eq_append]
  | call nnn =>
    simp only [exec, execCall, pushAndJump, errorOf, effect, stackDepth]
    by_cases h : 16 ≤ s.stack.length <;> simp [h, raise]
  | zero =>
    simp only [exec, execZero, errorOf, effect]
    cases s.zeroWordPolicy <;> simp
  | unknown op =>
    simp only [exec, execUnknown, errorOf, effect]
    cases s.strictUnknown <;> simp [raise]
  | drw x y n => exact withRange_eq _ _ _ _
  | ldBVx x => exact withRange_eq _ _ _ _
  | ldMemVx x => exact withRange_eq _ _ _ _
  | ldVxMem x => exact withRange_eq _ _ _ _
  | _ => rfl

/-- The inversion of `exec`: an error and nothing but the mode changes, or no error and the effect. -/
theorem exec_cases {i : Instr} {s t : State} (h : exec i s = .next t) :
    (∃ e, errorOf i s = some e ∧ t = s.faultWith e) ∨ (errorOf i s = none ∧ t = effect i s) := by
  rw [exec_eq] at h
  injection h with h
  cases he : errorOf i s with
  | some e => rw [he] at h; exact .inl ⟨e, rfl, h.symm⟩
  | none => rw [he] at h; exact .inr ⟨rfl, h.symm⟩

/-! What no effect touches, and the modes an effect can leave. -/

@[simp] theorem effect_enabled (i : Instr) (s : State) : (effect i s).enabled = s.enabled := by
  cases i
  case zero => simp only [effect]; split <;> rfl
  all_goals first
    | rfl
    | exact State.skipIf_enabled _ _

@[simp] theorem effect_strictUnknown (i : Instr) (s : State) : (effect i s).strictUnknown = s.strictUnknown := by
  cases i
  case zero => simp only [effect]; split <;> rfl
  all_goals first
    | rfl
    | exact State.skipIf_strictUnknown _ _

@[simp] theorem effect_zeroWordPolicy (i : Instr) (s : State) : (effect i s).zeroWordPolicy = s.zeroWordPolicy := by
  cases i
  case zero => simp only [effect]; split <;> rfl
  all_goals first
    | rfl
    | exact State.skipIf_zeroWordPolicy _ _

@[simp] theorem effect_keys (i : Instr) (s : State) : (effect i s).keys = s.keys := by
  cases i
  case zero => simp only [effect]; split <;> rfl
  all_goals first
    | rfl
    | exact State.skipIf_keys _ _

@[simp] theorem effect_schedule (i : Instr) (s : State) : (effect i s).schedule = s.schedule := by
  cases i
  case zero => simp only [effect]; split <;> rfl
  all_goals first
    | rfl
    | exact State.skipIf_schedule _ _

/-- Only Fx0A changes the mode by its effect (44_timers_input.md R275). -/
theorem effect_mode (i : Instr) (s : State) :
    (effect i s).mode = s.mode ∨ ∃ x, i = .ldVxK x ∧ (effect i s).mode = .waiting x := by
  cases i
  case zero => left; simp only [effect]; split <;> rfl
  case ldVxK x => exact .inr ⟨x, rfl, rfl⟩
  all_goals left; first
    | rfl
    | exact State.skipIf_mode _ _

/-- Only an unknown word writes to the diagnostics channel (60_exceptions.md R305). -/
theorem effect_diagLog (i : Instr) (s : State) :
    (effect i s).diagLog = s.diagLog ∨
    ∃ op, i = .unknown op ∧ (effect i s).diagLog = s.diagLog ++ [⟨op, s.fetchAddr⟩] := by
  cases i
  case zero => left; simp only [effect]; split <;> rfl
  case unknown op => exact .inr ⟨op, rfl, rfl⟩
  all_goals left; first
    | rfl
    | exact State.skipIf_diagLog _ _

/-- An effect never leaves the block faulted when it was running. -/
theorem effect_faultOut (i : Instr) {s : State} (h : s.mode = .running) : (effect i s).faultOut = none := by
  rcases effect_mode i s with hm | ⟨x, _, hm⟩ <;> simp [State.faultOut, hm, h]

end Sys2Proof.Machine
end

