-- ==== Sys2Proof/Laws/Memory.lean ====
section
/-! SUPPORT. Memory: a read after a write, byte by byte and for a run of bytes, and the canonical form that every write
keeps. -/

namespace Sys2Proof.Machine

theorem Memory.read_filter_ne (m : Memory) {a b : Nat} (h : b ≠ a) :
    Memory.read (m.filter fun c => c.1 != a) b = Memory.read m b := by
  induction m with
  | nil => rfl
  | cons c rest ih =>
    by_cases hc : c.1 = a
    · simp only [List.filter_cons, hc, bne_self_eq_false, Bool.false_eq_true, if_false, ih, Memory.read, Ne.symm h]
    · by_cases hcb : c.1 = b <;> simp [hc, Memory.read, hcb, ih, h]

theorem Memory.read_filter_self (m : Memory) (a : Nat) :
    Memory.read (m.filter fun c => c.1 != a) a = Memory.unlisted a := by
  induction m with
  | nil => rfl
  | cons c rest ih =>
    by_cases hc : c.1 = a
    · simpa [List.filter_cons, hc] using ih
    · simpa [List.filter_cons, hc, Memory.read] using ih

theorem Memory.read_insertCell_ne (m : Memory) {a b : Nat} (h : b ≠ a) (w : Byte) :
    Memory.read (Memory.insertCell m a w) b = Memory.read m b := by
  induction m with
  | nil => simp [Memory.insertCell, Memory.read, Ne.symm h]
  | cons c rest ih =>
    simp only [Memory.insertCell]
    split
    · simp [Memory.read, Ne.symm h]
    · simp [Memory.read, ih]

theorem Memory.read_insertCell_self (m : Memory) (a : Nat) (w : Byte) (h : ∀ c ∈ m, c.1 ≠ a) :
    Memory.read (Memory.insertCell m a w) a = w := by
  induction m with
  | nil => simp [Memory.insertCell, Memory.read]
  | cons c rest ih =>
    simp only [Memory.insertCell]
    split
    · simp [Memory.read]
    · simp [Memory.read, h c (by simp), ih fun d hd => h d (by simp [hd])]

/-- A read after a write: the byte written there, the old byte elsewhere. -/
theorem Memory.read_write (m : Memory) (a b : Nat) (w : Byte) :
    (m.write a w).read b = if b = a then w else m.read b := by
  unfold Memory.write
  split
  · rename_i hw
    by_cases h : b = a
    · simp [h, Memory.read_filter_self, hw]
    · simp [h, Memory.read_filter_ne m h]
  · by_cases h : b = a
    · subst h
      rw [if_pos rfl]
      exact Memory.read_insertCell_self _ _ _ (by simp)
    · rw [if_neg h, Memory.read_insertCell_ne _ h, Memory.read_filter_ne m h]

/-- Writing a run of bytes: inside the run the bytes of the list, outside it the old bytes. -/
theorem Memory.read_writeBytes (l : List Byte) (m : Memory) (a b : Nat) :
    (m.writeBytes a l).read b = if h : a ≤ b ∧ b - a < l.length then l[b - a] else m.read b := by
  induction l generalizing m a with
  | nil => simp [Memory.writeBytes]
  | cons w rest ih =>
    rw [Memory.writeBytes, ih, Memory.read_write]
    by_cases hb : b = a
    · subst hb; simp
    · by_cases hin : a + 1 ≤ b ∧ b - (a + 1) < rest.length
      · have h1 : a ≤ b ∧ b - a < (w :: rest).length := ⟨by omega, by simp only [List.length_cons]; omega⟩
        rw [dif_pos hin, dif_pos h1]
        have : b - a = b - (a + 1) + 1 := by omega
        simp [this]
      · have h1 : ¬ (a ≤ b ∧ b - a < (w :: rest).length) := by
          simp only [List.length_cons]; omega
        rw [dif_neg hin, dif_neg h1, if_neg hb]

theorem Memory.read_writeBytes_inside (l : List Byte) (m : Memory) (a k : Nat) (h : k < l.length) :
    (m.writeBytes a l).read (a + k) = l[k] := by
  rw [Memory.read_writeBytes, dif_pos ⟨by omega, by omega⟩]
  congr 1; omega

theorem Memory.read_writeBytes_outside (l : List Byte) (m : Memory) (a b : Nat) (h : b < a ∨ a + l.length ≤ b) :
    (m.writeBytes a l).read b = m.read b := by
  rw [Memory.read_writeBytes, dif_neg (by omega)]

theorem Memory.readBytes_length (m : Memory) (a n : Nat) : (m.readBytes a n).length = n := by
  simp [Memory.readBytes]

theorem Memory.readBytes_getElem (m : Memory) (a n k : Nat) (h : k < (m.readBytes a n).length) :
    (m.readBytes a n)[k] = m.read (a + k) := by
  simp [Memory.readBytes]

theorem Memory.fetchWord_toNat (m : Memory) (a : Nat) :
    (m.fetchWord a).toNat = (m.read a).toNat * 256 + (m.read (a + 1)).toNat :=
  Laws.wordOfBytes_toNat _ _

/-! ## The canonical form -/

theorem Memory.risesAbove_iff (lo : Nat) (m : Memory) :
    Memory.risesAbove lo m = true ↔ (∀ c ∈ m, lo < c.1) ∧ m.Pairwise fun c d => c.1 < d.1 := by
  induction m generalizing lo with
  | nil => simp [Memory.risesAbove]
  | cons c rest ih =>
    simp only [Memory.risesAbove, Bool.and_eq_true, decide_eq_true_eq, ih, List.pairwise_cons, List.mem_cons,
      forall_eq_or_imp]
    constructor
    · rintro ⟨h1, h2, h3⟩; exact ⟨⟨h1, fun d hd => lt_trans h1 (h2 d hd)⟩, h2, h3⟩
    · rintro ⟨⟨h1, _⟩, h2, h3⟩; exact ⟨h1, h2, h3⟩

/-- The canonical form in words: addresses strictly rising, all at most 0xFFF, no cell that says what unlisted says. -/
theorem Memory.wf_iff (m : Memory) :
    m.wf = true ↔ (m.Pairwise fun c d => c.1 < d.1) ∧ ∀ c ∈ m, c.1 ≤ topAddr ∧ c.2 ≠ Memory.unlisted c.1 := by
  cases m with
  | nil => simp [Memory.wf]
  | cons c rest => simp [Memory.wf, Memory.risesAbove_iff, List.pairwise_cons]

theorem Memory.mem_insertCell (m : Memory) (a : Nat) (w : Byte) (c : Host.Cell) :
    c ∈ Memory.insertCell m a w ↔ c = (a, w) ∨ c ∈ m := by
  induction m with
  | nil => simp [Memory.insertCell]
  | cons d rest ih =>
    simp only [Memory.insertCell]
    split
    · simp
    · simp only [List.mem_cons, ih]; tauto

theorem Memory.insertCell_rising (m : Memory) (a : Nat) (w : Byte) (hm : m.Pairwise fun c d => c.1 < d.1)
    (hne : ∀ c ∈ m, c.1 ≠ a) : (Memory.insertCell m a w).Pairwise fun c d => c.1 < d.1 := by
  induction m with
  | nil => simp [Memory.insertCell]
  | cons d rest ih =>
    obtain ⟨h1, h2⟩ := List.pairwise_cons.mp hm
    simp only [Memory.insertCell]
    split
    · rename_i hlt
      refine List.pairwise_cons.mpr ⟨fun c hc => ?_, hm⟩
      rcases List.mem_cons.mp hc with rfl | hc
      · exact hlt
      · exact lt_trans hlt (h1 c hc)
    · rename_i hge
      refine List.pairwise_cons.mpr ⟨fun c hc => ?_, ih h2 fun c hc => hne c (by simp [hc])⟩
      rcases (Memory.mem_insertCell rest a w c).mp hc with rfl | hc
      · have := hne d (by simp); simp only; omega
      · exact h1 c hc

theorem Memory.write_wf (m : Memory) (a : Nat) (w : Byte) (ha : a ≤ topAddr) (hm : m.wf = true) :
    (m.write a w).wf = true := by
  rw [Memory.wf_iff] at hm ⊢
  obtain ⟨hp, hc⟩ := hm
  have hp' := hp.filter fun c : Host.Cell => c.1 != a
  have hc' : ∀ c ∈ m.filter fun c : Host.Cell => c.1 != a, c.1 ≤ topAddr ∧ c.2 ≠ Memory.unlisted c.1 :=
    fun c h => hc c (List.mem_filter.mp h).1
  unfold Memory.write
  split
  · exact ⟨hp', hc'⟩
  · rename_i hw
    refine ⟨Memory.insertCell_rising _ _ _ hp' (by simp), fun c h => ?_⟩
    rcases (Memory.mem_insertCell _ a w c).mp h with rfl | h
    · exact ⟨ha, hw⟩
    · exact hc' c h

/-- Every write inside the address space keeps the canonical form. -/
theorem Memory.writeBytes_wf (l : List Byte) (m : Memory) (a : Nat) (ha : a + l.length ≤ topAddr + 1)
    (hm : m.wf = true) : (m.writeBytes a l).wf = true := by
  induction l generalizing m a with
  | nil => exact hm
  | cons w rest ih =>
    simp only [List.length_cons] at ha
    exact ih _ _ (by omega) (Memory.write_wf m a w (by omega) hm)

/-! ## What an unlisted address reads as -/

theorem fontBase_room : Config.fontBase.val + 80 ≤ 0x200 := by
  have := Config.fontBase.isLt
  omega

theorem Memory.unlisted_font (k : Fin 80) : Memory.unlisted (Config.fontBase.val + k.val) = Config.fontData k := by
  have := fontBase_room
  unfold Memory.unlisted romBase
  rw [if_neg (by omega), if_pos (by unfold fontBaseAddr; omega)]
  simp [fontByte, fontBaseAddr]

theorem Memory.unlisted_zero {a : Nat} (h : a < Config.fontBase.val ∨ Config.fontBase.val + 80 ≤ a) :
    Memory.unlisted a = 0 := by
  unfold Memory.unlisted
  split
  · rfl
  · split
    · unfold fontByte
      rw [dif_neg (by unfold fontBaseAddr at *; omega)]
    · rfl

/-! ## The memory after reset, after a reset event, and with a word placed is in canonical form -/

theorem reset_mem_wf : State.reset.mem.wf = true := rfl

theorem resetWith_mem_wf (rom : List Byte) {s : State} (h : s.mem.wf = true) : (resetWith rom s).mem.wf = true := by
  unfold resetWith
  split
  · exact h
  · exact Memory.writeBytes_wf _ _ _ (by simp only [romMax, romBase, topAddr] at *; omega) rfl

theorem placeWord_mem_wf (op : Word) {s : State} (h : s.mem.wf = true) : (s.placeWord op).mem.wf = true := by
  unfold State.placeWord
  have ha : (if s.pc.toNat < topAddr then s.pc else 0x0200#16).toNat < topAddr := by
    split
    · assumption
    · decide
  exact Memory.write_wf _ _ _ ha (Memory.write_wf _ _ _ (Nat.le_of_lt ha) h)

end Sys2Proof.Machine
end

