-- ==== Sys2Proof/Laws/PerInstr.lean ====
section
/-! SUPPORT. Per instruction: the word of a well-formed instruction is of its own row of the opcode map
(30_encoding.md R104). -/

namespace Sys2Proof.Laws.RowOfEncoding

/-- Every row of R104 that carries the instruction's mnemonic matches its encoding. -/
def Statement (i : Instr) : Prop :=
  i.wellFormed = true → ∀ r ∈ opcodeRows, r.mnemonic = i.mnemonic → r.matchesWord (encode i) = true

/-- It is enough to look at the one row the mnemonic names. -/
theorem of_row {i : Instr} (mask pattern : Word) (hm : encode i &&& mask = pattern)
    (hr : ∀ r ∈ opcodeRows, r.mnemonic = i.mnemonic → r.mask = mask ∧ r.pattern = pattern) : Statement i := by
  intro _ r hmem hname
  obtain ⟨h1, h2⟩ := hr r hmem hname
  simp [OpcodeRow.matchesWord, h1, h2, hm]

theorem mask_nnn {f : Nat} (hf : f < 16) (nnn : BitVec 12) :
    packNnn f nnn &&& 0xF000#16 = BitVec.ofNat 16 (f * 0x1000) := by
  apply BitVec.eq_of_toNat_eq; rw [and_F000_toNat, packNnn_toNat hf, BitVec.toNat_ofNat]; omega

theorem mask_xkk {f : Nat} (hf : f < 16) (x : Reg) (kk : Byte) :
    packXkk f x kk &&& 0xF000#16 = BitVec.ofNat 16 (f * 0x1000) := by
  apply BitVec.eq_of_toNat_eq; rw [and_F000_toNat, packXkk_toNat hf, BitVec.toNat_ofNat]; omega

theorem mask_xyn {f : Nat} (hf : f < 16) (x y : Reg) (n : Fin 16) :
    packXyn f x y n &&& 0xF000#16 = BitVec.ofNat 16 (f * 0x1000) := by
  apply BitVec.eq_of_toNat_eq; rw [and_F000_toNat, packXyn_toNat hf, BitVec.toNat_ofNat]; omega

theorem mask_xy {f : Nat} (hf : f < 16) (x y : Reg) (n : Fin 16) :
    packXyn f x y n &&& 0xF00F#16 = BitVec.ofNat 16 (f * 0x1000 + n.val) := by
  apply BitVec.eq_of_toNat_eq; rw [and_F00F_toNat, packXyn_toNat hf, BitVec.toNat_ofNat]; omega

theorem mask_x {f : Nat} (hf : f < 16) (x : Reg) (kk : Byte) :
    packXkk f x kk &&& 0xF0FF#16 = BitVec.ofNat 16 (f * 0x1000 + kk.toNat) := by
  apply BitVec.eq_of_toNat_eq; rw [and_F0FF_toNat, packXkk_toNat hf, BitVec.toNat_ofNat]; omega

theorem zero : Statement (.zero) :=
  of_row 0xFFFF 0x0000 (by decide) (by simp only [Instr.mnemonic]; decide)

theorem cls : Statement (.cls) :=
  of_row 0xFFFF 0x00E0 (by decide) (by simp only [Instr.mnemonic]; decide)

theorem ret : Statement (.ret) :=
  of_row 0xFFFF 0x00EE (by decide) (by simp only [Instr.mnemonic]; decide)

theorem jp (nnn : BitVec 12) : Statement (.jp nnn) :=
  of_row 0xF000 0x1000 (mask_nnn (f := 1) (by decide) nnn) (by simp only [Instr.mnemonic]; decide)

theorem call (nnn : BitVec 12) : Statement (.call nnn) :=
  of_row 0xF000 0x2000 (mask_nnn (f := 2) (by decide) nnn) (by simp only [Instr.mnemonic]; decide)

theorem seVxKk (x : Reg) (kk : Byte) : Statement (.seVxKk x kk) :=
  of_row 0xF000 0x3000 (mask_xkk (f := 3) (by decide) x kk) (by simp only [Instr.mnemonic]; decide)

theorem sneVxKk (x : Reg) (kk : Byte) : Statement (.sneVxKk x kk) :=
  of_row 0xF000 0x4000 (mask_xkk (f := 4) (by decide) x kk) (by simp only [Instr.mnemonic]; decide)

theorem seVxVy (x y : Reg) : Statement (.seVxVy x y) :=
  of_row 0xF00F 0x5000 (mask_xy (f := 5) (by decide) x y 0) (by simp only [Instr.mnemonic]; decide)

theorem ldVxKk (x : Reg) (kk : Byte) : Statement (.ldVxKk x kk) :=
  of_row 0xF000 0x6000 (mask_xkk (f := 6) (by decide) x kk) (by simp only [Instr.mnemonic]; decide)

theorem addVxKk (x : Reg) (kk : Byte) : Statement (.addVxKk x kk) :=
  of_row 0xF000 0x7000 (mask_xkk (f := 7) (by decide) x kk) (by simp only [Instr.mnemonic]; decide)

theorem ldVxVy (x y : Reg) : Statement (.ldVxVy x y) :=
  of_row 0xF00F 0x8000 (mask_xy (f := 8) (by decide) x y 0) (by simp only [Instr.mnemonic]; decide)

theorem orVxVy (x y : Reg) : Statement (.orVxVy x y) :=
  of_row 0xF00F 0x8001 (mask_xy (f := 8) (by decide) x y 1) (by simp only [Instr.mnemonic]; decide)

theorem andVxVy (x y : Reg) : Statement (.andVxVy x y) :=
  of_row 0xF00F 0x8002 (mask_xy (f := 8) (by decide) x y 2) (by simp only [Instr.mnemonic]; decide)

theorem xorVxVy (x y : Reg) : Statement (.xorVxVy x y) :=
  of_row 0xF00F 0x8003 (mask_xy (f := 8) (by decide) x y 3) (by simp only [Instr.mnemonic]; decide)

theorem addVxVy (x y : Reg) : Statement (.addVxVy x y) :=
  of_row 0xF00F 0x8004 (mask_xy (f := 8) (by decide) x y 4) (by simp only [Instr.mnemonic]; decide)

theorem subVxVy (x y : Reg) : Statement (.subVxVy x y) :=
  of_row 0xF00F 0x8005 (mask_xy (f := 8) (by decide) x y 5) (by simp only [Instr.mnemonic]; decide)

theorem shr (x y : Reg) : Statement (.shr x y) :=
  of_row 0xF00F 0x8006 (mask_xy (f := 8) (by decide) x y 6) (by simp only [Instr.mnemonic]; decide)

theorem subnVxVy (x y : Reg) : Statement (.subnVxVy x y) :=
  of_row 0xF00F 0x8007 (mask_xy (f := 8) (by decide) x y 7) (by simp only [Instr.mnemonic]; decide)

theorem shl (x y : Reg) : Statement (.shl x y) :=
  of_row 0xF00F 0x800E (mask_xy (f := 8) (by decide) x y 14) (by simp only [Instr.mnemonic]; decide)

theorem sneVxVy (x y : Reg) : Statement (.sneVxVy x y) :=
  of_row 0xF00F 0x9000 (mask_xy (f := 9) (by decide) x y 0) (by simp only [Instr.mnemonic]; decide)

theorem ldINnn (nnn : BitVec 12) : Statement (.ldINnn nnn) :=
  of_row 0xF000 0xA000 (mask_nnn (f := 10) (by decide) nnn) (by simp only [Instr.mnemonic]; decide)

theorem jpV0Nnn (nnn : BitVec 12) : Statement (.jpV0Nnn nnn) :=
  of_row 0xF000 0xB000 (mask_nnn (f := 11) (by decide) nnn) (by simp only [Instr.mnemonic]; decide)

theorem rnd (x : Reg) (kk : Byte) : Statement (.rnd x kk) :=
  of_row 0xF000 0xC000 (mask_xkk (f := 12) (by decide) x kk) (by simp only [Instr.mnemonic]; decide)

theorem drw (x y : Reg) (n : Fin 16) : Statement (.drw x y n) :=
  of_row 0xF000 0xD000 (mask_xyn (f := 13) (by decide) x y n) (by simp only [Instr.mnemonic]; decide)

theorem skp (x : Reg) : Statement (.skp x) :=
  of_row 0xF0FF 0xE09E (mask_x (f := 14) (by decide) x 158) (by simp only [Instr.mnemonic]; decide)

theorem sknp (x : Reg) : Statement (.sknp x) :=
  of_row 0xF0FF 0xE0A1 (mask_x (f := 14) (by decide) x 161) (by simp only [Instr.mnemonic]; decide)

theorem ldVxDt (x : Reg) : Statement (.ldVxDt x) :=
  of_row 0xF0FF 0xF007 (mask_x (f := 15) (by decide) x 7) (by simp only [Instr.mnemonic]; decide)

theorem ldVxK (x : Reg) : Statement (.ldVxK x) :=
  of_row 0xF0FF 0xF00A (mask_x (f := 15) (by decide) x 10) (by simp only [Instr.mnemonic]; decide)

theorem ldDtVx (x : Reg) : Statement (.ldDtVx x) :=
  of_row 0xF0FF 0xF015 (mask_x (f := 15) (by decide) x 21) (by simp only [Instr.mnemonic]; decide)

theorem ldStVx (x : Reg) : Statement (.ldStVx x) :=
  of_row 0xF0FF 0xF018 (mask_x (f := 15) (by decide) x 24) (by simp only [Instr.mnemonic]; decide)

theorem addIVx (x : Reg) : Statement (.addIVx x) :=
  of_row 0xF0FF 0xF01E (mask_x (f := 15) (by decide) x 30) (by simp only [Instr.mnemonic]; decide)

theorem ldFVx (x : Reg) : Statement (.ldFVx x) :=
  of_row 0xF0FF 0xF029 (mask_x (f := 15) (by decide) x 41) (by simp only [Instr.mnemonic]; decide)

theorem ldBVx (x : Reg) : Statement (.ldBVx x) :=
  of_row 0xF0FF 0xF033 (mask_x (f := 15) (by decide) x 51) (by simp only [Instr.mnemonic]; decide)

theorem ldMemVx (x : Reg) : Statement (.ldMemVx x) :=
  of_row 0xF0FF 0xF055 (mask_x (f := 15) (by decide) x 85) (by simp only [Instr.mnemonic]; decide)

theorem ldVxMem (x : Reg) : Statement (.ldVxMem x) :=
  of_row 0xF0FF 0xF065 (mask_x (f := 15) (by decide) x 101) (by simp only [Instr.mnemonic]; decide)

/-- No row carries the mnemonic of an unknown word. -/
theorem unknown (op : Word) : Statement (.unknown op) := by
  intro _ r hmem hname
  simp only [opcodeRows, opcodeRowsLow, opcodeRowsAlu, opcodeRowsMid, opcodeRowsHigh, List.cons_append, List.nil_append,
    List.mem_cons, List.not_mem_nil, or_false] at hmem
  rcases hmem with h | h | h | h | h | h | h | h | h | h | h | h | h | h | h | h | h | h | h | h | h | h | h | h | h |
    h | h | h | h | h | h | h | h | h | h <;> subst h <;> exact absurd hname (by simp [Instr.mnemonic])

end Sys2Proof.Laws.RowOfEncoding
end

