-- ==== Sys2Proof/Laws/Step.lean ====
section
/-! SUPPORT. One step of the machine, every case: an instruction's effect, a fatal error, an event without effect, or one of
the other events, each with the fields it can write. Proofs about a step cite `step_cases` instead of unfolding it. -/

namespace Sys2Proof.Machine

theorem step_willExecute {s : State} (h : s.WillExecute) : step s = engineStep s.popEvent := by
  rw [step_eq, h.1]; rfl

/-- A step that has an effect: the fetch fault, or the decoded instruction run with PC advanced. -/
theorem step_willExecute_cases {s t : State} (h : s.WillExecute) (hs : step s = .next t) :
    (0xFFF ≤ s.pc.toNat ∧ t = s.popEvent.faultWith (.addressOutOfRange (max s.pc.toNat 0x1000) s.pc)) ∨
    (s.pc.toNat ≤ 0xFFE ∧ exec (decodeWord (s.mem.fetchWord s.pc.toNat)) s.popEvent.advancePc = .next t) := by
  rw [step_willExecute h] at hs
  rcases engineStep_cases s.popEvent with ⟨hn, _⟩ | ⟨_, hp, he⟩ | ⟨_, hp, he⟩
  · exact absurd ⟨h.2.1, h.2.2⟩ hn
  · rw [he] at hs
    injection hs with hs
    exact .inl ⟨hp, hs.symm⟩
  · rw [he] at hs
    exact .inr ⟨hp, hs⟩

theorem countDown_toNat (b : Byte) : (countDown b).toNat = b.toNat - 1 := by
  have := b.isLt
  unfold countDown
  split
  · rw [BitVec.toNat_sub]; simp; omega
  · omega

/-- A delay tick writes DT only. -/
theorem tickDt_only (s : State) : ∃ b, tickDt s = { s with dt := b } := by
  by_cases h : s.enabled = true
  · exact ⟨countDown s.dt, by rw [tickDt, if_pos h]⟩
  · exact ⟨s.dt, by rw [tickDt, if_neg h]⟩

/-- A sound tick writes ST only. -/
theorem tickSt_only (s : State) : ∃ b, tickSt s = { s with st := b } := by
  by_cases h : s.enabled = true
  · exact ⟨countDown s.st, by rw [tickSt, if_pos h]⟩
  · exact ⟨s.st, by rw [tickSt, if_neg h]⟩

/-- A key press writes the Input Surface, and beside it at most the registers and the mode. -/
theorem keyDown_only (id : KeyId) (s : State) :
    ∃ v m, keyDown id s = { s with v := v, mode := m, keys := s.keys ||| keyMask id } := by
  rcases endWait_cases id (s.keys.getLsbD id.val) { s with keys := s.keys ||| keyMask id } with
    ⟨x, _, _, _, he⟩ | ⟨_, he⟩
  · exact ⟨_, _, by rw [keyDown, he]; rfl⟩
  · exact ⟨_, _, by rw [keyDown, he]⟩

/-- Everything one step of the machine can do, but for a reset. -/
theorem step_cases {s t : State} (hs : step s = .next t) (hr : ∀ rom, s.nextEvent ≠ .reset rom) :
    (s.WillExecute ∧ s.pc.toNat ≤ 0xFFE ∧
      errorOf (decodeWord (s.mem.fetchWord s.pc.toNat)) s.popEvent.advancePc = none ∧
      t = effect (decodeWord (s.mem.fetchWord s.pc.toNat)) s.popEvent.advancePc) ∨
    (s.WillExecute ∧ ∃ e p, t = { s.popEvent with mode := .faulted e, pc := p }) ∨
    (s.nextEvent = .step ∧ ¬ s.WillExecute ∧ t = s.popEvent) ∨
    (s.nextEvent = .tickDt ∧ t = tickDt s.popEvent) ∨
    (s.nextEvent = .tickSt ∧ t = tickSt s.popEvent) ∨
    (∃ id, s.nextEvent = .keyDown id ∧ t = keyDown id s.popEvent) ∨
    (∃ id, s.nextEvent = .keyUp id ∧ t = keyUp id s.popEvent) ∨
    (s.nextEvent = .stop ∧ t = stop s.popEvent) ∨
    (s.nextEvent = .start ∧ t = start s.popEvent) := by
  rcases step_event_cases hs with ⟨h, he⟩ | h | h | h | h | ⟨rom, h, _⟩ | h | h
  · by_cases hw : s.WillExecute
    · rcases step_willExecute_cases hw hs with ⟨_, rfl⟩ | ⟨hp, hx⟩
      · exact .inr (.inl ⟨hw, _, _, rfl⟩)
      · rcases exec_cases hx with ⟨e, _, rfl⟩ | ⟨h1, h2⟩
        · exact .inr (.inl ⟨hw, _, _, rfl⟩)
        · exact .inl ⟨hw, hp, h1, h2⟩
    · refine .inr (.inr (.inl ⟨h, hw, ?_⟩))
      rw [engineStep_idle (s := s.popEvent) (fun hc => hw ⟨h, hc.1, hc.2⟩)] at he
      injection he with he
      exact he.symm
  · exact .inr (.inr (.inr (.inl h)))
  · exact .inr (.inr (.inr (.inr (.inl h))))
  · exact .inr (.inr (.inr (.inr (.inr (.inl h)))))
  · exact .inr (.inr (.inr (.inr (.inr (.inr (.inl h))))))
  · exact absurd h (hr rom)
  · exact .inr (.inr (.inr (.inr (.inr (.inr (.inr (.inl h)))))))
  · exact .inr (.inr (.inr (.inr (.inr (.inr (.inr (.inr h)))))))

end Sys2Proof.Machine
end

