-- ==== Sys2Proof/Laws/Runs.lean ====
section
/-! SUPPORT. Runs: every event has a next state, reads and writes no schedule, and is the step of the machine in the state
that lists it first; so every sequence of events is a run, and every finite one a run of the machine. -/

namespace Sys2Proof.Machine

/-- An event is what the machine does in the state that lists it first: `step_cases` is its inversion too. -/
theorem step_cons (e : Event) (s : State) : step { s with schedule := e :: s.schedule } = applyEvent e s := rfl

/-- Every instruction answers a next state. -/
theorem exec_total (i : Instr) (s : State) : ∃ t, exec i s = .next t := ⟨_, exec_eq i s⟩

theorem engineStep_total (s : State) : ∃ t, engineStep s = .next t := by
  rcases engineStep_cases s with ⟨_, h⟩ | ⟨_, _, h⟩ | ⟨_, _, h⟩
  · exact ⟨_, h⟩
  · exact ⟨_, h⟩
  · rw [h]; exact exec_total _ _

theorem applyEvent_total (e : Event) (s : State) : ∃ t, applyEvent e s = .next t := by
  cases e with
  | step => exact engineStep_total s
  | _ => exact ⟨_, rfl⟩

/-! ## The schedule is idle in an event -/

theorem errorOf_schedule (i : Instr) (s : State) (l : List Event) : errorOf i { s with schedule := l } = errorOf i s := by
  cases i <;> rfl

theorem skipIf_schedule (s : State) (c : Bool) (l : List Event) :
    ({ s with schedule := l } : State).skipIf c = { s.skipIf c with schedule := l } := by
  cases c <;> rfl

theorem effect_withSchedule (i : Instr) (s : State) (l : List Event) :
    effect i { s with schedule := l } = { effect i s with schedule := l } := by
  cases i
  case zero => simp only [effect]; split <;> rfl
  all_goals first
    | rfl
    | exact skipIf_schedule s _ l

theorem exec_withSchedule {i : Instr} {s t : State} (l : List Event) (h : exec i s = .next t) :
    exec i { s with schedule := l } = .next { t with schedule := l } := by
  rw [exec_eq, errorOf_schedule, effect_withSchedule]
  rcases exec_cases h with ⟨e, he, rfl⟩ | ⟨he, rfl⟩
  · rw [he]; rfl
  · rw [he]

theorem engineStep_withSchedule {s t : State} (l : List Event) (h : engineStep s = .next t) :
    engineStep { s with schedule := l } = .next { t with schedule := l } := by
  rcases engineStep_cases s with ⟨hn, he⟩ | ⟨hr, hp, he⟩ | ⟨hr, hp, he⟩ <;> rw [he] at h
  · injection h with h; subst h
    exact engineStep_idle (s := { s with schedule := l }) hn
  · injection h with h; subst h
    exact engineStep_fetchFault (s := { s with schedule := l }) hr hp
  · exact (engineStep_run (s := { s with schedule := l }) hr hp).trans (exec_withSchedule l h)

/-- An event does the same whatever the schedule lists, and leaves the list alone. -/
theorem applyEvent_withSchedule {e : Event} {s t : State} (l : List Event) (h : applyEvent e s = .next t) :
    applyEvent e { s with schedule := l } = .next { t with schedule := l } := by
  cases e with
  | step => exact engineStep_withSchedule l h
  | tickDt => injection h with h; subst h; simp only [applyEvent, tickDt]; split <;> rfl
  | tickSt => injection h with h; subst h; simp only [applyEvent, tickSt]; split <;> rfl
  | keyDown id =>
    injection h with h
    subst h
    simp only [applyEvent, keyDown, endWait]
    cases s.mode with
    | waiting x => dsimp only; split <;> rfl
    | running => rfl
    | faulted f => rfl
  | keyUp id => injection h with h; subst h; rfl
  | reset rom => injection h with h; subst h; simp only [applyEvent, resetWith]; split <;> rfl
  | stop => injection h with h; subst h; rfl
  | start => injection h with h; subst h; rfl

/-- The machine, in a state that lists `e` first, makes the event `e`, and the rest of the list stays. -/
theorem step_listed {e : Event} {s t : State} (l : List Event) (h : applyEvent e s = .next t) :
    step { s with schedule := e :: l } = .next { t with schedule := l } :=
  applyEvent_withSchedule (e := e) (s := s) l h

/-! ## Running -/

@[simp] theorem applyEvents_nil (s : State) : applyEvents [] s = .next s := rfl

theorem applyEvents_cons {e : Event} {rest : List Event} {s t : State} (h : applyEvent e s = .next t) :
    applyEvents (e :: rest) s = applyEvents rest t := by
  rw [applyEvents, h]

/-- One event more at the end of a finite run. -/
theorem applyEvents_snoc {es : List Event} {e : Event} {s t u : State} (h : applyEvents es s = .next t)
    (he : applyEvent e t = .next u) : applyEvents (es ++ [e]) s = .next u := by
  induction es generalizing s with
  | nil =>
    injection h with h
    subst h
    rw [List.nil_append, applyEvents_cons he, applyEvents_nil]
  | cons d rest ih =>
    obtain ⟨v, hv⟩ := applyEvent_total d s
    rw [applyEvents_cons hv] at h
    rw [List.cons_append, applyEvents_cons hv]
    exact ih h

/-- One step of the machine's own runs. -/
theorem core_run_succ {s t : State} (k : Nat) (h : step s = .next t) :
    Sys2Proof.core.run (k + 1) s = Sys2Proof.core.run k t := by
  have hc : Sys2Proof.core.step s = .next t := h
  simp only [Host.Core.run, hc]

/-- The state an event leads to. -/
def eventState (e : Event) (s : State) : State :=
  match applyEvent e s with
  | .next t => t
  | .fault _ => s
  | .refused _ => s

theorem applyEvent_eventState (e : Event) (s : State) : applyEvent e s = .next (eventState e s) := by
  obtain ⟨t, h⟩ := applyEvent_total e s
  rw [eventState, h]

/-- The states of the run of a sequence of events from `s`. -/
def statesFrom (events : Nat → Event) (s : State) : Nat → State
  | 0 => s
  | n + 1 => eventState (events n) (statesFrom events s n)

theorem statesFrom_isRun (events : Nat → Event) (s : State) : IsRun events (statesFrom events s) :=
  fun _ => applyEvent_eventState _ _

/-- The next state of a run is the one its event leads to. -/
theorem IsRun.succ {events : Nat → Event} {states : Nat → State} (h : IsRun events states) (n : Nat) :
    states (n + 1) = eventState (events n) (states n) := by
  have := h n
  rw [applyEvent_eventState] at this
  injection this with this
  exact this.symm

/-- An invariant of events is one of runs. -/
theorem IsRun.induction {events : Nat → Event} {states : Nat → State} (h : IsRun events states) (P : State → Prop)
    {n : Nat} (h0 : P (states n))
    (hP : ∀ m, n ≤ m → ∀ t, P (states m) → applyEvent (events m) (states m) = .next t → P t) :
    ∀ m, n ≤ m → P (states m) := by
  intro m hm
  induction m, hm using Nat.le_induction with
  | base => exact h0
  | succ m hm ih => exact hP m hm _ ih (h m)

end Sys2Proof.Machine
end

