-- ==== Sys2Proof/Tests/Slice0.lean ====
section
/-! SUPPORT. The model's own tests. The expected results are the spec's: the encodings of 30_encoding.md R104 and R105,
and the vectors of 95_test_vectors.md, each named by its id. After them, for every obligation with hypotheses, a witness:
concrete states and operands that meet the hypotheses, at the boundary values of each clause. -/

namespace Sys2Proof.Tests

open Sys2Proof Sys2Proof.Machine

/-! ## Well-formedness: the ill-formed terms are the `unknown` ones that hold a word of some row -/

theorem test_wellFormed_refuses_unknown_of_known_words :
    (Instr.unknown 0x0000).wellFormed = false ∧ (Instr.unknown 0x00E0).wellFormed = false ∧
    (Instr.unknown 0x1234).wellFormed = false ∧ (Instr.unknown 0x5120).wellFormed = false ∧
    (Instr.unknown 0x8AB6).wellFormed = false ∧ (Instr.unknown 0xE79E).wellFormed = false ∧
    (Instr.unknown 0xF365).wellFormed = false := by decide

theorem test_wellFormed_accepts :
    (Instr.unknown 0x5121).wellFormed = true ∧ (Instr.unknown 0x0123).wellFormed = true ∧
    (Instr.drw 15 15 15).wellFormed = true := by decide

/-! ## Decoding: every constructor by a word written out from its pattern in R104 (x = A, y = B, n = C, kk = CD) -/

theorem test_decode_family_0 :
    decodeWord 0x0000 = .zero ∧ decodeWord 0x00E0 = .cls ∧ decodeWord 0x00EE = .ret ∧
    decodeWord 0x00E1 = .unknown 0x00E1 := by decide

theorem test_decode_families_1_to_7 :
    decodeWord 0x1ABC = .jp 0xABC ∧ decodeWord 0x2ABC = .call 0xABC ∧ decodeWord 0x3ACD = .seVxKk 0xA 0xCD ∧
    decodeWord 0x4ACD = .sneVxKk 0xA 0xCD ∧ decodeWord 0x5AB0 = .seVxVy 0xA 0xB ∧
    decodeWord 0x6ACD = .ldVxKk 0xA 0xCD ∧ decodeWord 0x7ACD = .addVxKk 0xA 0xCD := by decide

theorem test_decode_family_8 :
    decodeWord 0x8AB0 = .ldVxVy 0xA 0xB ∧ decodeWord 0x8AB1 = .orVxVy 0xA 0xB ∧ decodeWord 0x8AB2 = .andVxVy 0xA 0xB ∧
    decodeWord 0x8AB3 = .xorVxVy 0xA 0xB ∧ decodeWord 0x8AB4 = .addVxVy 0xA 0xB ∧
    decodeWord 0x8AB5 = .subVxVy 0xA 0xB ∧ decodeWord 0x8AB6 = .shr 0xA 0xB ∧ decodeWord 0x8AB7 = .subnVxVy 0xA 0xB ∧
    decodeWord 0x8ABE = .shl 0xA 0xB := by decide

theorem test_decode_families_9_to_E :
    decodeWord 0x9AB0 = .sneVxVy 0xA 0xB ∧ decodeWord 0xAABC = .ldINnn 0xABC ∧ decodeWord 0xBABC = .jpV0Nnn 0xABC ∧
    decodeWord 0xCACD = .rnd 0xA 0xCD ∧ decodeWord 0xDABC = .drw 0xA 0xB 0xC ∧ decodeWord 0xEA9E = .skp 0xA ∧
    decodeWord 0xEAA1 = .sknp 0xA := by decide

theorem test_decode_family_F :
    decodeWord 0xFA07 = .ldVxDt 0xA ∧ decodeWord 0xFA0A = .ldVxK 0xA ∧ decodeWord 0xFA15 = .ldDtVx 0xA ∧
    decodeWord 0xFA18 = .ldStVx 0xA ∧ decodeWord 0xFA1E = .addIVx 0xA ∧ decodeWord 0xFA29 = .ldFVx 0xA ∧
    decodeWord 0xFA33 = .ldBVx 0xA ∧ decodeWord 0xFA55 = .ldMemVx 0xA ∧ decodeWord 0xFA65 = .ldVxMem 0xA := by decide

/-- R105, one word of each line of its table. -/
theorem test_decode_unknown :
    decodeWord 0x0123 = .unknown 0x0123 ∧ decodeWord 0x5121 = .unknown 0x5121 ∧ decodeWord 0x8128 = .unknown 0x8128 ∧
    decodeWord 0x812F = .unknown 0x812F ∧ decodeWord 0x9121 = .unknown 0x9121 ∧ decodeWord 0xE0FF = .unknown 0xE0FF ∧
    decodeWord 0xF066 = .unknown 0xF066 := by decide

/-- The high byte comes first (20_memory.md R74); one byte is no instruction (R100). -/
theorem test_decode_bytes :
    decode [0x2A, 0xBC, 0x77] = .ok (.call 0xABC, [0x77]) ∧ decode [0x2A] = .error (.oneByteOnly 0x2A) ∧
    decode [] = .error .noBytes ∧ decodeTableWord 16 0xDABC = some (.drw 0xA 0xB 0xC) := ⟨rfl, rfl, rfl, by decide⟩

theorem test_encode :
    encode (.drw 0xA 0xB 0xC) = 0xDABC ∧ encode (.shl 0xA 0xB) = 0x8ABE ∧ encode (.jpV0Nnn 0xABC) = 0xBABC ∧
    encode (.ldMemVx 0xA) = 0xFA55 ∧ encodeBytes (.seVxKk 0xA 0xCD) = [0x3A, 0xCD] := by decide

/-! ## One step of one word -/

/-- The next state, or the state itself on any other outcome. -/
def nextOr (r : Result) (s : State) : State :=
  match r with
  | .next t => t
  | .fault _ => s
  | .refused _ => s

/-- The state after one step of `op`, placed at PC of `s`. -/
def ran (op : Word) (s : State) : State := nextOr (step (s.placeWord op)) s

/-- The state after one event. -/
def after (e : Event) (s : State) : State := nextOr (step { s with schedule := [e] }) s

/-- The reset state with one, two or three registers set. -/
abbrev r0 : State := State.reset
def with1 (x : Reg) (a : Byte) : State := r0.setV x a
def with2 (x : Reg) (a : Byte) (y : Reg) (b : Byte) : State := (r0.setV x a).setV y b
def with3 (x : Reg) (a : Byte) (y : Reg) (b : Byte) (z : Reg) (c : Byte) : State := ((r0.setV x a).setV y b).setV z c

/-- T-CTL-19, T-CTL-20. -/
theorem test_zero :
    ran 0x0000 r0 = { r0.placeWord 0x0000 with pc := 0x202 } ∧
    ran 0x0000 { r0 with zeroWordPolicy := .hold } = { r0.placeWord 0x0000 with zeroWordPolicy := .hold } := by decide

/-- T-CTL-06, T-CTL-31. -/
theorem test_ret :
    ran 0x00EE { r0 with stack := [0x206, 0x30A] } = { r0.placeWord 0x00EE with pc := 0x30A, stack := [0x206] } ∧
    ran 0x00EE { r0 with pc := 0x202, stack := [0x202] } = { (ran 0x00EE r0) with
      mem := [(0x203, 0xEE)], pc := 0x202, mode := .running } := by decide

/-- T-CTL-07. -/
theorem test_ret_empty : ran 0x00EE r0 = { r0.placeWord 0x00EE with
    pc := 0x202, mode := .faulted (.stackUnderflow 0x200) } := by decide

/-- T-CTL-03, T-CTL-04. -/
theorem test_call :
    ran 0x2300 r0 = { r0.placeWord 0x2300 with pc := 0x300, stack := [0x202] } ∧
    (ran 0x2300 { r0 with stack := List.replicate 15 0x202 }).stack = List.replicate 16 0x202 := by decide

/-- T-CTL-05. -/
theorem test_call_full : ran 0x2300 { r0 with stack := List.replicate 16 0x202 } = { r0.placeWord 0x2300 with
    stack := List.replicate 16 0x202, pc := 0x202, mode := .faulted (.stackOverflow 0x200) } := by decide

/-- T-CTL-01, T-CTL-02. -/
theorem test_jp : ran 0x1ABC r0 = { r0.placeWord 0x1ABC with pc := 0xABC } ∧ (ran 0x1201 r0).pc = 0x201 := by decide

/-- T-CTL-17, T-CTL-18. -/
theorem test_jp_v0 : ran 0xB300 (with1 0 0x04) = { (with1 0 0x04).placeWord 0xB300 with pc := 0x304 } ∧
    (ran 0xBFFF (with1 0 0xFF)).pc = 0x10FE := by decide

/-- T-CTL-08, T-CTL-09, T-CTL-16. -/
theorem test_se_kk : ran 0x3A42 (with1 0xA 0x42) = { (with1 0xA 0x42).placeWord 0x3A42 with pc := 0x204 } ∧
    (ran 0x3A42 (with1 0xA 0x43)).pc = 0x202 ∧ (ran 0x3000 { r0 with pc := 0xFFC }).pc = 0x1000 := by decide

/-- T-CTL-10, T-CTL-11. -/
theorem test_sne_kk : ran 0x4A42 (with1 0xA 0x43) = { (with1 0xA 0x43).placeWord 0x4A42 with pc := 0x204 } ∧
    (ran 0x4A42 (with1 0xA 0x42)).pc = 0x202 := by decide

/-- T-CTL-12, T-CTL-13. -/
theorem test_se_vy : ran 0x5120 (with2 1 0x33 2 0x33) = { (with2 1 0x33 2 0x33).placeWord 0x5120 with pc := 0x204 } ∧
    (ran 0x5770 (with1 7 0x99)).pc = 0x204 ∧ (ran 0x5120 (with1 1 0x33)).pc = 0x202 := by decide

/-- T-CTL-14, T-CTL-15. -/
theorem test_sne_vy : ran 0x9120 (with2 1 0x01 2 0x02) = { (with2 1 0x01 2 0x02).placeWord 0x9120 with pc := 0x204 } ∧
    (ran 0x9120 (with2 1 0x05 2 0x05)).pc = 0x202 := by decide

/-- T-CTL-21, T-CTL-23. -/
theorem test_unknown_lenient :
    ran 0x0123 r0 = { r0.placeWord 0x0123 with pc := 0x202, diagLog := [⟨0x0123, 0x200⟩] } ∧
    (ran 0x5121 (with2 1 1 2 1)).pc = 0x202 ∧ (ran 0x5121 (with2 1 1 2 1)).diagLog = [⟨0x5121, 0x200⟩] := by decide

/-- T-CTL-22, T-CTL-24. -/
theorem test_unknown_strict :
    ran 0x0123 { r0 with strictUnknown := true } = { r0.placeWord 0x0123 with
      strictUnknown := true, pc := 0x202, mode := .faulted (.unknownOpcode 0x0123 0x200) } ∧
    (ran 0xE0FF { r0 with strictUnknown := true }).mode = .faulted (.unknownOpcode 0xE0FF 0x200) := by decide

/-- T-CTL-25, T-CTL-26, T-CTL-27. -/
theorem test_fetch_edges :
    after .step { r0 with pc := 0x1000 } = { r0 with
      pc := 0x1000, mode := .faulted (.addressOutOfRange 0x1000 0x1000) } ∧
    after .step { r0 with pc := 0xFFF, mem := [(0xFFF, 0x12)] } = { r0 with
      pc := 0xFFF, mem := [(0xFFF, 0x12)], mode := .faulted (.addressOutOfRange 0x1000 0xFFF) } ∧
    (after .step { r0 with pc := 0xFFE, mem := [(0xFFE, 0x12)] }).pc = 0x200 := by decide

/-- T-CTL-28, T-CTL-29, T-CTL-30: 6005 at PC, and the step has no effect. -/
theorem test_step_idle :
    let s := { r0 with mem := [(0x200, 0x60), (0x201, 0x05)] }
    after .step { s with mode := .waiting 3 } = { s with mode := .waiting 3 } ∧
    after .step { s with mode := .faulted (.stackUnderflow 0x200) } =
      { s with mode := .faulted (.stackUnderflow 0x200) } ∧
    after .step { s with enabled := false } = { s with enabled := false } := by decide

/-- T-ALU-01, T-ALU-02. -/
theorem test_ld_kk : ran 0x6AFF r0 = { (r0.placeWord 0x6AFF).setV 0xA 0xFF with pc := 0x202 } ∧
    (ran 0x6F00 (with1 0xF 1)).getV 0xF = 0 := by decide

/-- T-ALU-03, T-ALU-04. -/
theorem test_add_kk : ran 0x71FF (with1 1 5) = { (r0.placeWord 0x71FF).setV 1 4 with pc := 0x202 } ∧
    (ran 0x7F01 (with1 0xF 0xFF)).getV 0xF = 0 := by decide

/-- T-ALU-05. -/
theorem test_ld_vy : ran 0x8AB0 (with1 0xB 0x5A) = { ((with1 0xB 0x5A).placeWord 0x8AB0).setV 0xA 0x5A with
    pc := 0x202 } := by decide

/-- T-ALU-06, T-ALU-07, T-ALU-08, T-ALU-09. -/
theorem test_logic :
    (ran 0x8011 (with3 0 0xF0 1 0x0F 0xF 0x77)).v = (with3 0 0xFF 1 0x0F 0xF 0x77).v ∧
    (ran 0x8012 (with2 0 0xF0 1 0x3C)).v = (with2 0 0x30 1 0x3C).v ∧
    (ran 0x8013 (with2 0 0xFF 1 0x0F)).v = (with2 0 0xF0 1 0x0F).v ∧ (ran 0x8333 (with1 3 0xAB)).v = r0.v := by decide

/-- T-ALU-10 to T-ALU-13. -/
theorem test_add :
    (ran 0x8014 (with2 0 0x7F 1 0x80)).v = (with2 0 0xFF 1 0x80).v ∧
    (ran 0x8014 (with2 0 0xFF 1 0x01)).v = (with3 0 0x00 1 0x01 0xF 1).v ∧
    (ran 0x8014 (with2 0 0xFF 1 0xFF)).v = (with3 0 0xFE 1 0xFF 0xF 1).v ∧
    (ran 0x8004 (with1 0 0x80)).v = (with1 0xF 1).v := by decide

/-- T-ALU-14, T-ALU-15. -/
theorem test_add_vf :
    (ran 0x8F14 (with2 0xF 0xFF 1 0x01)).v = (with2 0xF 0x01 1 0x01).v ∧
    (ran 0x80F4 (with2 0 0x01 0xF 0xFF)).v = (with1 0xF 1).v := by decide

/-- T-ALU-16 to T-ALU-19. -/
theorem test_sub :
    (ran 0x8015 (with2 0 5 1 3)).v = (with3 0 2 1 3 0xF 1).v ∧ (ran 0x8015 (with2 0 5 1 5)).v = (with1 1 5).v ∧
    (ran 0x8015 (with2 0 3 1 5)).v = (with2 0 0xFE 1 5).v ∧
    (ran 0x8F15 (with2 0xF 0x10 1 1)).v = (with2 0xF 1 1 1).v := by decide

/-- T-ALU-20 to T-ALU-23. -/
theorem test_shr :
    (ran 0x8506 (with1 5 0x03)).v = (with2 5 1 0xF 1).v ∧ (ran 0x8506 (with1 5 0x80)).v = (with1 5 0x40).v ∧
    (ran 0x85E6 (with2 5 2 0xE 0xFF)).v = (with2 5 1 0xE 0xFF).v ∧ (ran 0x8F06 (with1 0xF 3)).v = (with1 0xF 1).v := by
  decide

/-- T-ALU-24, T-ALU-25, T-ALU-26. -/
theorem test_subn :
    (ran 0x8017 (with2 0 3 1 5)).v = (with3 0 2 1 5 0xF 1).v ∧ (ran 0x8017 (with2 0 5 1 5)).v = (with1 1 5).v ∧
    (ran 0x8017 (with2 0 5 1 3)).v = (with2 0 0xFE 1 3).v := by decide

/-- T-ALU-27, T-ALU-28, T-ALU-29. -/
theorem test_shl :
    (ran 0x820E (with1 2 0x81)).v = (with2 2 2 0xF 1).v ∧ (ran 0x820E (with1 2 0x7F)).v = (with1 2 0xFE).v ∧
    (ran 0x8F0E (with1 0xF 0x80)).v = (with1 0xF 1).v := by decide

/-- T-ALU-30, T-ALU-31, T-ALU-32, for every byte the rng input can present. -/
theorem test_rnd :
    (ran 0xC30F r0).getV 3 = Config.rngByte 0 &&& 0x0F ∧ (ran 0xC300 r0).getV 3 = 0 ∧
    (ran 0xC3FF { r0 with rngDraws := 7 }).getV 3 = Config.rngByte 7 &&& 0xFF := ⟨rfl, BitVec.and_zero, rfl⟩

/-- T-IDX-01. -/
theorem test_ld_i : ran 0xA123 r0 = { r0.placeWord 0xA123 with i := 0x123, pc := 0x202 } := by decide

/-- T-IDX-02, T-IDX-03, T-IDX-04. -/
theorem test_add_i :
    (ran 0xF01E { (with1 0 1) with i := 0xFFF }).i = 0x1000 ∧ (ran 0xF01E { (with1 0 1) with i := 0xFFFF }).i = 0 ∧
    ran 0xFF1E { (with1 0xF 1) with i := 0x100 } = { (with1 0xF 1).placeWord 0xFF1E with i := 0x101, pc := 0x202 } := by
  decide

/-- T-IDX-05, T-IDX-06. -/
theorem test_ld_f :
    (ran 0xF029 (with1 0 0x0A)).i = BitVec.ofNat 16 (Config.fontBase.val + 0x32) ∧
    (ran 0xF029 (with1 0 0xFF)).i = BitVec.ofNat 16 (Config.fontBase.val + 0x4FB) := ⟨rfl, rfl⟩

/-- T-IDX-07 to T-IDX-10. -/
theorem test_ld_b :
    (ran 0xF533 { (with1 5 84) with i := 0x300 }).mem.readBytes 0x300 3 = [0, 8, 4] ∧
    (ran 0xF533 { (with1 5 0xFF) with i := 0x300 }).mem.readBytes 0x300 3 = [2, 5, 5] ∧
    (ran 0xF533 { r0 with i := 0x300, mem := [(0x300, 9), (0x301, 9), (0x302, 9)] }).mem = (r0.placeWord 0xF533).mem ∧
    (ran 0xF533 { (with1 5 123) with i := 0xFFD }).mem.readBytes 0xFFD 3 = [1, 2, 3] := by decide

/-- T-IDX-11. -/
theorem test_ld_b_range : ran 0xF533 { (with1 5 123) with i := 0xFFE } = { (with1 5 123).placeWord 0xF533 with
    i := 0xFFE, pc := 0x202, mode := .faulted (.addressOutOfRange 0x1000 0x200) } := by decide

/-- T-IDX-12, T-IDX-19. -/
theorem test_ld_mem :
    ran 0xF155 { (with2 0 0x11 1 0x22) with i := 0x300 } = { (with2 0 0x11 1 0x22).placeWord 0xF155 with
      i := 0x300, pc := 0x202, mem := [(0x200, 0xF1), (0x201, 0x55), (0x300, 0x11), (0x301, 0x22)] } ∧
    (ran 0xF155 { (with2 0 0x12 1 0x34) with i := 0x200 }).mem = [(0x200, 0x12), (0x201, 0x34)] := by decide

/-- T-IDX-13, T-IDX-14. -/
theorem test_ld_mem_all :
    (ran 0xFF55 { r0 with i := 0xFF0, v := Vector.ofFn fun k : Fin 16 => BitVec.ofNat 8 (k.val + 1) }).mem.readBytes
      0xFF0 16 = [1, 2, 3, 4, 5, 6, 7, 8, 9, 10, 11, 12, 13, 14, 15, 16] ∧
    ran 0xFF55 { (with1 0 1) with i := 0xFF1 } = { (with1 0 1).placeWord 0xFF55 with
      i := 0xFF1, pc := 0x202, mode := .faulted (.addressOutOfRange 0x1000 0x200) } := by decide

/-- T-IDX-15, T-IDX-16. -/
theorem test_ld_from_mem :
    (ran 0xF265 { r0 with i := 0x300, mem := [(0x300, 2), (0x301, 5), (0x302, 6)] }).v = (with3 0 2 1 5 2 6).v ∧
    (ran 0xF065 { r0 with i := 0xFFF, mem := [(0xFFF, 0xAB)] }).v = (with1 0 0xAB).v := by decide

/-- T-IDX-17, T-IDX-18. -/
theorem test_ld_from_mem_range :
    ran 0xF165 { (with1 0 7) with i := 0xFFF } = { (with1 0 7).placeWord 0xF165 with
      i := 0xFFF, pc := 0x202, mode := .faulted (.addressOutOfRange 0x1000 0x200) } ∧
    (ran 0xF065 { r0 with i := 0x1000 }).mode = .faulted (.addressOutOfRange 0x1000 0x200) := by decide

/-- A framebuffer with one pixel set. -/
def dot (x : Fin 64) (y : Fin 32) : Framebuffer := Framebuffer.cleared.setPixel x y true

/-- T-DSP-01. -/
theorem test_cls : ran 0x00E0 { (with1 0xF 5) with fb := (dot 0 0).setPixel 63 31 true } =
    { (with1 0xF 5).placeWord 0x00E0 with pc := 0x202 } := by decide

set_option maxRecDepth 8000 in
/-- T-DSP-04, T-DSP-05. -/
theorem test_drw_collision :
    ran 0xD011 { r0 with i := 0x300, mem := [(0x300, 0x80)], fb := dot 0 0 } =
      { ({ r0 with i := 0x300, mem := [(0x300, 0x80)] }.placeWord 0xD011).setV 0xF 1 with pc := 0x202 } ∧
    (ran 0xD011 { r0 with i := 0x300, mem := [(0x300, 0x40)], fb := dot 0 0 }).fb = (dot 0 0).setPixel 1 0 true ∧
    (ran 0xD011 { r0 with i := 0x300, mem := [(0x300, 0x40)], fb := dot 0 0 }).v = r0.v := by decide

set_option maxRecDepth 8000 in
/-- T-DSP-07, T-DSP-08. -/
theorem test_drw_coordinates :
    (ran 0xDF01 { (with2 0xF 2 0 3) with i := 0x300, mem := [(0x300, 0x80)] }).fb = dot 2 3 ∧
    (ran 0xDF01 { (with2 0xF 2 0 3) with i := 0x300, mem := [(0x300, 0x80)] }).v = (with1 0 3).v ∧
    (ran 0xD011 { (with2 0 200 1 40) with i := 0x300, mem := [(0x300, 0x80)] }).fb = dot 8 8 := ⟨by decide, by decide, rfl⟩

set_option maxRecDepth 8000 in
/-- T-DSP-03 (the example of R243). -/
theorem test_drw_wraps :
    (ran 0xD012 { (with2 0 63 1 31) with i := 0x210, mem := [(0x210, 0xC0), (0x211, 0xC0)] }).fb =
      (((dot 63 31).setPixel 0 31 true).setPixel 63 0 true).setPixel 0 0 true := by decide

set_option maxRecDepth 8000 in
/-- T-DSP-06, T-DSP-09, T-DSP-10. -/
theorem test_drw_range :
    ran 0xD010 { (with1 0xF 0x55) with i := 0xFFFF } = { r0.placeWord 0xD010 with i := 0xFFFF, pc := 0x202 } ∧
    ran 0xD012 { (with1 0xF 9) with i := 0xFFF } = { (with1 0xF 9).placeWord 0xD012 with
      i := 0xFFF, pc := 0x202, mode := .faulted (.addressOutOfRange 0x1000 0x200) } ∧
    (ran 0xD001 { r0 with i := 0xFFF, mem := [(0xFFF, 0xFF)] }).fb[0] = 0xFF := by decide

/-- T-TMR-01, T-TMR-02, T-TMR-05. -/
theorem test_skp :
    ran 0xE09E { (with1 0 5) with keys := 0x20 } = { (with1 0 5).placeWord 0xE09E with keys := 0x20, pc := 0x204 } ∧
    (ran 0xE09E (with1 0 5)).pc = 0x202 ∧ (ran 0xE09E { (with1 0 0x15) with keys := 0x20 }).pc = 0x202 := by decide

/-- T-TMR-03, T-TMR-04, T-TMR-06. -/
theorem test_sknp :
    ran 0xE0A1 (with1 0 5) = { (with1 0 5).placeWord 0xE0A1 with pc := 0x204 } ∧
    (ran 0xE0A1 { (with1 0 5) with keys := 0x20 }).pc = 0x202 ∧
    (ran 0xE0A1 { (with1 0 0x15) with keys := 0x20 }).pc = 0x204 := by decide

/-- T-TMR-07 to T-TMR-10. -/
theorem test_timer_transfers :
    ran 0xF307 { r0 with dt := 0x2A } = { (r0.placeWord 0xF307).setV 3 0x2A with dt := 0x2A, pc := 0x202 } ∧
    ran 0xF015 (with1 0 0x3C) = { (with1 0 0x3C).placeWord 0xF015 with dt := 0x3C, pc := 0x202 } ∧
    ran 0xF118 (with1 1 5) = { (with1 1 5).placeWord 0xF118 with st := 5, pc := 0x202 } := by decide

theorem test_sound : (ran 0xF118 (with1 1 5)).soundOut = true ∧ (ran 0xF118 { r0 with st := 9 }).soundOut = false := by
  decide

/-- T-TMR-11, T-TMR-12. -/
theorem test_ld_k :
    ran 0xF30A r0 = { r0.placeWord 0xF30A with mode := .waiting 3, pc := 0x202 } ∧ (ran 0xF30A r0).waitingOut = true ∧
    (ran 0xF30A { r0 with keys := 0x10 }).mode = .waiting 3 := by decide

/-! ## The other events -/

/-- T-EVT-01 to T-EVT-06. -/
theorem test_ticks :
    after .tickDt { r0 with dt := 1 } = r0 ∧ after .tickDt r0 = r0 ∧ (after .tickDt { r0 with dt := 0xFF }).dt = 0xFE ∧
    after .tickSt { r0 with st := 1 } = r0 ∧ after .tickSt r0 = r0 ∧
    after .tickDt { r0 with dt := 5, st := 5 } = { r0 with dt := 4, st := 5 } := by decide

/-- T-EVT-07, T-EVT-08, T-EVT-09. -/
theorem test_ticks_in_every_mode :
    after .tickDt { r0 with mode := .waiting 3, dt := 2 } = { r0 with mode := .waiting 3, dt := 1 } ∧
    (after .tickDt { r0 with mode := .faulted (.stackOverflow 0x200), dt := 2 }).dt = 1 ∧
    (after .tickDt { r0 with enabled := false, dt := 2 }).dt = 2 := by decide

/-- T-EVT-10, T-EVT-11, T-EVT-15. -/
theorem test_key_down_waiting :
    after (.keyDown 0xB) { r0 with mode := .waiting 3 } = { (with1 3 0xB) with keys := 0x800 } ∧
    after (.keyDown 0xB) { r0 with mode := .waiting 3, keys := 0x800 } = { r0 with mode := .waiting 3, keys := 0x800 } ∧
    after (.keyDown 0) { (with1 0xF 7) with mode := .waiting 0xF } = { r0 with keys := 1 } := by decide

/-- T-EVT-12, T-EVT-13, T-EVT-14. -/
theorem test_key_down_more :
    after (.keyDown 0xB) (after (.keyUp 0xB) { r0 with mode := .waiting 3, keys := 0x800 }) =
      { (with1 3 0xB) with keys := 0x800 } ∧
    after (.keyDown 2) r0 = { r0 with keys := 4 } ∧
    after .start (after (.keyDown 1) { r0 with mode := .waiting 3, enabled := false }) =
      { r0 with mode := .waiting 3, keys := 2 } := by decide

/-- T-EVT-16, with a ROM of 2 bytes. -/
theorem test_reset :
    after (.reset [0x12, 0x34]) { (with1 3 9) with
        i := 5, dt := 6, st := 7, stack := [8], fb := dot 1 2, mem := [(0x300, 1)], keys := 9, enabled := false,
        mode := .faulted (.stackOverflow 0x200) } =
      { r0 with mem := [(0x200, 0x12), (0x201, 0x34)], keys := 9, enabled := false } := by decide

/-- T-EVT-17, T-EVT-18. -/
theorem test_reset_size (s : State) :
    resetWith (List.replicate 0xE01 7) s = s ∧ (resetWith (List.replicate 0xE00 7) s).pc = 0x200 := by
  constructor
  · rw [resetWith, if_pos (by rw [List.length_replicate]; decide)]
  · rw [resetWith, if_neg (by rw [List.length_replicate]; decide)]

/-- T-EVT-19, T-EVT-20. -/
theorem test_stop_start :
    (let s := { r0 with dt := 3, st := 3, mem := [(0x200, 0x60), (0x201, 0x05)] }
     after .tickSt (after .tickDt (after .step (after .stop s))) = { s with enabled := false } ∧
     after .step (after .start { s with enabled := false }) = { s.setV 0 5 with pc := 0x202 }) := by decide

/-- A program placed by a reset event runs from 0x200 (log 12): W7, a CALL and its RET. -/
theorem test_run_from_reset :
    nextOr (Sys2Proof.core.run 3 { r0 with schedule := [.reset [0x22, 0x04, 0x00, 0x00, 0x00, 0xEE]] }) r0 =
      { r0 with pc := 0x202, mem := [(0x200, 0x22), (0x201, 0x04), (0x205, 0xEE)] } := by decide

/-- The host's placing of a word runs exactly that word. -/
theorem test_withFetchWord :
    step (State.reset.withFetchWord 16 0x8AB4) =
      exec (.addVxVy 0xA 0xB) { State.reset.withFetchWord 16 0x8AB4 with pc := 0x202 } := rfl

/-! ## Witnesses: states and operands that meet the hypotheses of each obligation, each clause at its boundary -/

/-- `op` at address `a`, and PC there. -/
def at_ (a op : Word) : State := { r0 with pc := a }.placeWord op

theorem at_willExecute (a op : Word) : (at_ a op).WillExecute := ⟨rfl, rfl, rfl⟩

theorem witness_DecodingTheEncodingGivesTheInstruction :
    (Instr.unknown 0x5121).wellFormed = true ∧ (Instr.drw 15 15 15).wellFormed = true := by decide

theorem witness_DecodingSelectsTheOneMatchingRow :
    (⟨"SE_VX_VY", 0xF00F, 0x5000⟩ : OpcodeRow) ∈ opcodeRows ∧
    (⟨"SE_VX_VY", 0xF00F, 0x5000⟩ : OpcodeRow).matchesWord 0x5AB0 = true ∧
    ∀ r ∈ opcodeRows, r.matchesWord 0x5AB1 = false := by decide

theorem witness_StepFetchesAdvancesAndRunsOnce :
    (r0.nextEvent = .step ∧ r0.enabled = true ∧ r0.mode = .running) ∧
    0xFFF < ({ r0 with pc := 0x1000 } : State).pc.toNat ∧ ({ r0 with pc := 0xFFF } : State).pc.toNat = 0xFFF ∧
    ({ r0 with pc := 0xFFE } : State).pc.toNat < 0xFFF ∧ ({ r0 with mode := .waiting 3 } : State).mode ≠ .running ∧
    ({ r0 with enabled := false } : State).enabled = false := by decide

theorem witness_StepRunsTheInstructionAtPc :
    (at_ 0xFFE 0x1ABC).WillExecute ∧ (at_ 0xFFE 0x1ABC).pc.toNat ≤ 0xFFE ∧ (Instr.jp 0xABC).wellFormed = true ∧
    encodeBytes (.jp 0xABC) =
      [(at_ 0xFFE 0x1ABC).mem.read (at_ 0xFFE 0x1ABC).pc.toNat,
       (at_ 0xFFE 0x1ABC).mem.read ((at_ 0xFFE 0x1ABC).pc.toNat + 1)] :=
  ⟨at_willExecute _ _, by decide, by decide, by decide⟩

/-- One step for each of the four outcomes. -/
theorem witness_StepEndsInTheReportedOutcome :
    stepReport (at_ 0x200 0x6005) (ran 0x6005 r0) = .ok ∧
    stepReport (at_ 0x200 0x0123) (ran 0x0123 r0) = .diag ⟨0x0123, 0x200⟩ ∧
    stepReport (at_ 0x200 0xF30A) (ran 0xF30A r0) = .wait 3 ∧
    stepReport (at_ 0x200 0x00EE) (ran 0x00EE r0) = .fault (.stackUnderflow 0x200) ∧
    (∀ op, (at_ 0x200 op).WillExecute) := ⟨rfl, rfl, rfl, rfl, at_willExecute _⟩

/-- A fetch fault, an error with PC advanced, and no error at the highest legal fetch address. -/
theorem witness_PcAfterEveryInstruction :
    (∃ t, step { r0 with pc := 0xFFF } = .next t ∧ t.faultOut = some (.addressOutOfRange 0x1000 0xFFF)) ∧
    (∃ t, step (at_ 0x200 0x00EE) = .next t ∧ t.faultOut = some (.stackUnderflow 0x200)) ∧
    (∃ t, step (at_ 0xFFE 0x3000) = .next t ∧ t.faultOut = none ∧ t.pc = 0x1002) :=
  ⟨⟨_, rfl, rfl⟩, ⟨_, rfl, rfl⟩, ⟨_, rfl, rfl, rfl⟩⟩

theorem witness_ZeroWordIsANoOp :
    r0.zeroWordPolicy = .advance ∧ ({ r0 with zeroWordPolicy := .hold } : State).zeroWordPolicy = .hold ∧
    r0.pc = 0x1FE + 2 := by decide

theorem witness_RetPopsTheStackIntoPc :
    ({ r0 with stack := [0x206] } : State).stack = [] ++ [0x206] ∧ r0.stack = [] ∧ r0.pc = 0x1FE + 2 := by decide

/-- A state whose stack holds `n` return addresses. -/
def deep (n : Nat) : State := { r0 with stack := List.replicate n 0x202 }

theorem witness_CallPushesPcAndJumps :
    (deep 15).stack.length < 16 ∧ (deep 16).stack.length = 16 ∧ (deep 16).pc = 0x1FE + 2 := by decide

theorem witness_RetAfterCallReturns :
    (deep 15).stack.length < 16 ∧ ∃ t, exec (.call 0x300) (deep 15) = .next t ∧ (deep 16).stack.length = 16 ∧
      ({ r0 with stack := t.stack } : State).stack = t.stack := ⟨by decide, _, rfl, by decide, rfl⟩

theorem witness_UnknownWordIsDiagnosedOrFatal :
    r0.pc = 0x1FE + 2 ∧ r0.strictUnknown = false ∧ ({ r0 with strictUnknown := true } : State).strictUnknown = true := by
  decide

/-- Both outcomes of each comparison. -/
theorem witness_RegisterSkips :
    (with1 1 5).getV 1 = 5 ∧ (with1 1 5).getV 1 ≠ 4 ∧ (with1 1 5).getV 2 = (with1 1 5).getV 3 ∧
    (with1 1 5).getV 1 ≠ (with1 1 5).getV 2 := by decide

theorem witness_OnlyFlagInstructionsDefineVf :
    r0.mode = .running ∧
    (∃ t, exec (.addVxVy 0 1) r0 = .next t ∧ DefinesFlag (.addVxVy 0 1) ∧ t.faultOut = none) ∧
    (∃ t, exec (.orVxVy 0 1) r0 = .next t ∧ ¬ DefinesFlag (.orVxVy 0 1) ∧ regVF ∉ destinations (.orVxVy 0 1)) :=
  ⟨rfl, ⟨_, rfl, trivial, rfl⟩, ⟨_, rfl, id, by decide⟩⟩

/-- The last register a block load leaves alone, and the first. -/
theorem witness_RegistersOutsideTheDestinationsAreKept :
    (∃ t, exec (.ldVxMem 3) { r0 with i := 0xFFC } = .next t) ∧ (4 : Reg) ∉ destinations (.ldVxMem 3) ∧
    (3 : Reg) ∈ destinations (.ldVxMem 3) ∧ (1 : Reg) ∉ destinations (.addVxVy 0 1) := ⟨⟨_, rfl⟩, by decide⟩

theorem witness_RegistersOutsideTheSourcesAreNotRead :
    (2 : Reg) ∉ sources (.addVxVy 0 1) ∧ (0 : Reg) ∉ sources (.ldVxVy 0 1) ∧ (4 : Reg) ∉ sources (.ldMemVx 3) ∧
    (∃ t, exec (.ldVxVy 0 1) r0 = .next t) := ⟨by decide, by decide, by decide, _, rfl⟩

/-- A state with I at `a`. -/
def index (a : Word) : State := { r0 with i := a }

theorem firstAddressAbove_1000 {base : Nat} (h : base ≤ 0x1000) : FirstAddressAbove base 0x1000 :=
  ⟨h, by decide, fun _ _ h => h⟩

/-- The hypotheses of every AddressOutOfRange clause, at the last base inside and at the first outside. -/
theorem witness_FaultsOutOfRange :
    r0.pc = 0x1FE + 2 ∧ FirstAddressAbove (index 0xFFE).i.toNat 0x1000 ∧ FirstAddressAbove (index 0x1000).i.toNat 0x1000 :=
  ⟨rfl, firstAddressAbove_1000 (by decide), firstAddressAbove_1000 (by decide)⟩

theorem witness_BcdStoresThreeDigits :
    (index 0xFFD).i.toNat + 2 ≤ 0xFFF ∧ 0xFFF < (index 0xFFE).i.toNat + 2 ∧ 0xFFF < (index 0xFFFF).i.toNat + 2 := by
  decide

/-- Also of RegisterBlockLoad and StoredBlockLoadsBack. -/
theorem witness_RegisterBlockStore :
    (index 0xFFF).i.toNat + (0 : Reg).val ≤ 0xFFF ∧ (index 0xFF0).i.toNat + (15 : Reg).val ≤ 0xFFF ∧
    0xFFF < (index 0x1000).i.toNat + (0 : Reg).val ∧ 0xFFF < (index 0xFF1).i.toNat + (15 : Reg).val := by decide

theorem witness_StoredBlockLoadsBack :
    (index 0xFF0).i.toNat + (15 : Reg).val ≤ 0xFFF ∧ ∃ t, exec (.ldMemVx 15) (index 0xFF0) = .next t ∧
      ({ r0 with mem := t.mem, i := 0xFF0 } : State).mem = t.mem ∧
      ({ r0 with mem := t.mem, i := 0xFF0 } : State).i = (index 0xFF0).i := ⟨by decide, _, rfl, rfl, rfl⟩

/-- One stored byte at the last address, read as the lower half; the first and the last of sixteen, each read both ways where
both fetches are in range; the digits at the last three addresses. -/
theorem witness_StoredBytesAreFetched :
    (index 0xFFF).i.toNat + (0 : Reg).val ≤ 0xFFF ∧
    ({ r0 with pc := 0xFFE } : State).pc.toNat + 1 = (index 0xFFF).i.toNat + (0 : Reg).val ∧
    (index 0xFEF).i.toNat + (15 : Reg).val ≤ 0xFFE ∧
    ({ r0 with pc := 0xFFE } : State).pc.toNat = (index 0xFEF).i.toNat + (15 : Reg).val ∧
    ({ r0 with pc := 0xFEE } : State).pc.toNat + 1 = (index 0xFEF).i.toNat + (0 : Reg).val ∧
    (index 0xFFD).i.toNat + 2 ≤ 0xFFF ∧ ({ r0 with pc := 0xFFD } : State).pc.toNat = (index 0xFFD).i.toNat ∧
    ({ r0 with pc := 0xFFE } : State).pc.toNat + 1 = (index 0xFFD).i.toNat + 2 := by decide

/-- A byte changed by a reset, by Fx33 and by Fx55, each at the last address there is. -/
theorem witness_OnlyStoresAndResetChangeMemory :
    (∃ t, step { r0 with schedule := [.reset [7]] } = .next t ∧ t.mem.read 0x200 ≠ r0.mem.read 0x200) ∧
    (∃ t, step ({ (with1 5 3) with i := 0xFFD }.placeWord 0xF533) = .next t ∧ t.mem.read 0xFFF ≠ r0.mem.read 0xFFF) ∧
    (∃ t, step ({ (with1 0 3) with i := 0xFFF }.placeWord 0xF055) = .next t ∧ t.mem.read 0xFFF ≠ r0.mem.read 0xFFF) :=
  ⟨⟨_, rfl, by decide⟩, ⟨_, rfl, by decide⟩, ⟨_, rfl, by decide⟩⟩

/-- A sprite of one byte at I = 0xFFF, its left bit set and no other. -/
def sprite : State := { r0 with i := 0xFFF, mem := [(0xFFF, 0x80)] }

theorem witness_WritersOfIndexStackAndFramebuffer :
    (¬ (at_ 0x200 0xA001).nextEvent.IsReset) ∧ (∃ t, step (at_ 0x200 0xA001) = .next t ∧ t.i ≠ (at_ 0x200 0xA001).i) ∧
    (∃ t, step (at_ 0x200 0x2300) = .next t ∧ t.stack ≠ (at_ 0x200 0x2300).stack) ∧
    (∃ t, step ((with1 0 1).placeWord 0xF01E) = .next t ∧ t.i ≠ 0) ∧
    (∃ t, step ((deep 1).placeWord 0x00EE) = .next t ∧ t.stack ≠ (deep 1).stack) ∧
    (∃ t, step ({ r0 with fb := dot 0 0 }.placeWord 0x00E0) = .next t ∧ t.fb[0] ≠ (dot 0 0)[0]) ∧
    (∃ t, step (sprite.placeWord 0xD001) = .next t ∧ t.fb[0] ≠ sprite.fb[0]) :=
  ⟨fun ⟨_, h⟩ => (by cases h), ⟨_, rfl, by decide⟩, ⟨_, rfl, by decide⟩, ⟨_, rfl, by decide⟩,
    ⟨_, rfl, by decide⟩, ⟨_, rfl, by decide⟩, ⟨_, rfl, by decide⟩⟩

theorem witness_WritersOfTheTimers :
    (∃ t, step { r0 with dt := 1, schedule := [.tickDt] } = .next t ∧ t.dt ≠ 1) ∧
    (∃ t, step ((with1 0 1).placeWord 0xF015) = .next t ∧ t.dt ≠ 0) ∧
    (∃ t, step { r0 with st := 1, schedule := [.tickSt] } = .next t ∧ t.st ≠ 1) ∧
    (∃ t, step ((with1 0 1).placeWord 0xF018) = .next t ∧ t.st ≠ 0) ∧ ¬ (Event.tickDt).IsReset :=
  ⟨⟨_, rfl, by decide⟩, ⟨_, rfl, by decide⟩, ⟨_, rfl, by decide⟩, ⟨_, rfl, by decide⟩, fun h => nomatch h⟩

theorem sprite_covers : SpriteCovers sprite 63 31 1 63 31 := ⟨0, 0, by decide, by decide, rfl, rfl, rfl⟩

theorem sprite_covers_only (px : Fin 64) (py : Fin 32) (h : px ≠ 63) : ¬ SpriteCovers sprite 63 31 1 px py := by
  rintro ⟨r, b, hr, hb, hx, -, hbit⟩
  obtain rfl : r = 0 := by omega
  have hb0 : b ≠ 0 := fun e => h (Fin.ext (by simp [hx, e]))
  have : ∀ k : Fin 7, (sprite.mem.read (sprite.i.toNat + 0)).getLsbD k.val = false := by decide
  rw [show 7 - b = (⟨7 - b, by omega⟩ : Fin 7).val from rfl, this] at hbit
  exact absurd hbit (by decide)

/-- No bytes, the last byte, one byte too many; a covered pixel that is set and one that is clear; none covered. -/
theorem witness_DrawXorsTheSpriteAndReportsErasure :
    sprite.i.toNat + (1 : Fin 16).val - 1 ≤ 0xFFF ∧ ((2 : Fin 16) ≠ 0 ∧ 0xFFF < sprite.i.toNat + (2 : Fin 16).val - 1) ∧
    SpriteCovers sprite 63 31 1 63 31 ∧ sprite.fb.pixel 63 31 = false ∧
    ({ sprite with fb := dot 63 31 } : State).fb.pixel 63 31 = true ∧ ¬ SpriteCovers sprite 63 31 1 0 31 :=
  ⟨by decide, by decide, sprite_covers, rfl, rfl, sprite_covers_only 0 31 (by decide)⟩

theorem witness_DrawingTwiceRestoresTheFramebuffer :
    (0 : Reg) ≠ regVF ∧ (14 : Reg) ≠ regVF ∧ sprite.i.toNat + (1 : Fin 16).val - 1 ≤ 0xFFF := by decide

/-- The highest key and the lowest byte that names none. -/
theorem witness_KeySkips :
    ((with1 0 0x0F).getV 0).toNat ≤ 0x0F ∧ ({ r0 with keys := 0x8000 } : State).keys.getLsbD 0x0F = true ∧
    ¬ ((with1 0 0x10).getV 0).toNat ≤ 0x0F := by decide

/-- A new press in a wait, a held key in a wait, a wait that is stopped, and no wait. -/
theorem witness_KeyDownEndsAWait :
    (let s : State := { r0 with mode := .waiting 15, schedule := [.keyDown 15] }
     s.schedule = .keyDown 15 :: [] ∧ s.mode = .waiting 15 ∧ s.enabled = true ∧ s.keys.getLsbD 15 = false ∧
     ({ s with keys := 0x8000 } : State).keys.getLsbD 15 = true ∧ ({ s with enabled := false } : State).enabled = false) ∧
    ∀ x, r0.mode ≠ .waiting x := by decide

theorem witness_KeyUpOnlyChangesTheInputSurface :
    ({ r0 with schedule := [.keyUp 15, .step] } : State).schedule = .keyUp 15 :: [.step] := by decide

theorem witness_TicksCountTheirTimerDown :
    ({ r0 with schedule := [.tickDt], dt := 1, mode := .waiting 0 } : State).schedule = .tickDt :: [] ∧
    ({ r0 with dt := 1 } : State).dt.toNat > 0 ∧ r0.dt = 0 ∧ r0.enabled = true ∧
    ({ r0 with schedule := [.tickSt], enabled := false } : State).schedule = .tickSt :: [] ∧
    ({ r0 with st := 0xFF } : State).st.toNat > 0 ∧ r0.st = 0 := by decide

theorem witness_WaitingLastsUntilAKeyPress :
    ({ r0 with mode := .waiting 3 } : State).mode = .waiting 3 ∧
    ∀ e ∈ ([.keyUp 4, .step, .tickDt] : List Event).take 3, (∀ id, e ≠ .keyDown id) ∧ ¬ e.IsReset := by
  refine ⟨rfl, ?_⟩
  simp [Event.IsReset]

theorem witness_OnlyKeySkipsReadTheKeys :
    (∀ x, Instr.ldVxK 3 ≠ .skp x) ∧ (∀ x, Instr.ldVxK 3 ≠ .sknp x) ∧
    ∃ t, exec (.ldVxK 3) { r0 with keys := 8 } = .next t := ⟨by decide, by decide, _, rfl⟩

/-- One step for each error, and the fetch fault. -/
theorem witness_EachErrorHasItsRaisers :
    (∃ t, step ((deep 16).placeWord 0x2300) = .next t ∧ t.mode = .faulted (.stackOverflow 0x200)) ∧
    (∃ t, step (at_ 0x200 0x00EE) = .next t ∧ t.mode = .faulted (.stackUnderflow 0x200)) ∧
    (∃ t, step ((index 0x1000).placeWord 0xF065) = .next t ∧ t.mode = .faulted (.addressOutOfRange 0x1000 0x200)) ∧
    (∃ t, step { r0 with pc := 0xFFF } = .next t ∧ t.mode = .faulted (.addressOutOfRange 0x1000 0xFFF)) ∧
    (∃ t, step ({ r0 with strictUnknown := true }.placeWord 0x5121) = .next t ∧
      t.mode = .faulted (.unknownOpcode 0x5121 0x200)) :=
  ⟨⟨_, rfl, rfl⟩, ⟨_, rfl, rfl⟩, ⟨_, rfl, rfl⟩, ⟨_, rfl, rfl⟩, ⟨_, rfl, rfl⟩⟩

theorem witness_AFaultingStepChangesOnlyModeAndPc :
    (at_ 0xFFE 0x00EE).WillExecute ∧ (at_ 0xFFE 0x00EE).pc.toNat ≤ 0xFFE ∧
    (∃ t, step (at_ 0xFFE 0x00EE) = .next t ∧ t.faultOut = some (.stackUnderflow 0xFFE)) ∧
    0xFFE < ({ r0 with pc := 0xFFF } : State).pc.toNat ∧
    ∃ t, step { r0 with pc := 0xFFF } = .next t ∧ t.faultOut = some (.addressOutOfRange 0x1000 0xFFF) :=
  ⟨at_willExecute _ _, by decide, ⟨_, rfl, rfl⟩, by decide, _, rfl, rfl⟩

theorem witness_FaultedUntilReset :
    ({ r0 with mode := .faulted (.stackUnderflow 0x200) } : State).mode = .faulted (.stackUnderflow 0x200) ∧
    ∀ e ∈ ([.step, .keyDown 3, .start, .reset []] : List Event).take 3, ¬ e.IsReset := by
  refine ⟨rfl, ?_⟩
  simp [Event.IsReset]

theorem witness_StopAndStartSwitchTheTasks :
    ({ r0 with schedule := [.stop] } : State).schedule = .stop :: [] ∧
    ({ r0 with schedule := [.start] } : State).schedule = .start :: [] ∧
    (let s : State := { r0 with enabled := false, schedule := [.keyDown 0], mode := .waiting 0 }
     s.enabled = false ∧ s.schedule = .keyDown 0 :: []) ∧ r0.nextEvent = .step := by decide

theorem witness_StoppedBlockIsFrozen :
    ({ r0 with enabled := false } : State).enabled = false ∧
    ∀ e ∈ ([.step, .tickDt, .keyDown 3, .stop, .start] : List Event).take 4, e ≠ .start ∧ ¬ e.IsReset := by
  refine ⟨rfl, ?_⟩
  simp [Event.IsReset]

/-- A register, `enabled` and the keys, each changed by its event. -/
theorem witness_WhatEventsCanChange :
    (∃ t, step { r0 with mode := .waiting 3, schedule := [.keyDown 15] } = .next t ∧ t.getV 3 ≠ 0 ∧ t.keys ≠ 0) ∧
    (∃ t, step { r0 with schedule := [.stop] } = .next t ∧ t.enabled ≠ r0.enabled) ∧
    Event.keyDown 15 ≠ .step ∧ ¬ (Event.keyDown 15).IsReset :=
  ⟨⟨_, rfl, by decide, by decide⟩, ⟨_, rfl, by decide⟩, by decide, fun h => nomatch h⟩

/-- The largest ROM that fits and the smallest that does not. -/
theorem witness_ResetSetsEveryItem :
    (List.replicate 0xE00 (7 : Byte)).length ≤ 0xE00 ∧ 0xE00 < (List.replicate 0xE01 (7 : Byte)).length ∧
    ({ r0 with schedule := [.reset [7], .step] } : State).schedule = .reset [7] :: [.step] := by
  rw [List.length_replicate, List.length_replicate]
  decide

/-- The last byte of the last glyph. -/
theorem witness_FontPointerFindsTheGlyph :
    (15 : Nat) < 16 ∧ (4 : Nat) < 5 ∧ ([] : List Byte).length ≤ 0xE00 ∧
    ∃ t, step { r0 with schedule := [.reset []] } = .next t ∧ (t.setV 0 15).mem = t.mem ∧
      ((t.setV 0 15).getV 0).toNat = 15 := ⟨by decide, by decide, by decide, _, rfl, rfl, rfl⟩

/-- The invariant on a full stack, in a fault, with memory listed. -/
theorem witness_EveryStepKeepsTheInvariant :
    ({ (deep 16) with mode := .faulted (.stackOverflow 0x200), mem := [(0x200, 0x22), (0xFFF, 1)] } : State).Inv ∧
    ((deep 16).placeWord 0x2300).Inv ∧ ∃ t, step ((deep 16).placeWord 0x2300) = .next t :=
  ⟨⟨rfl, by decide, rfl⟩, ⟨rfl, by decide, rfl⟩, _, rfl⟩

/-- Only step events. -/
def steps : Nat → Event := fun _ => .step

/-- The program 6005 at 0x200, and the sentinel after it. -/
def shortProgram : State := { r0 with mem := [(0x200, 0x60), (0x201, 0x05)] }

/-- R350: the run of the short program ends before its second step, in the state with V0 = 5 and PC at the sentinel; the step
after that fetches the sentinel too and is no end. -/
theorem test_run_ends_at_the_first_sentinel :
    EndsAt steps (statesFrom steps shortProgram) 1 ∧
    statesFrom steps shortProgram 1 = { shortProgram.setV 0 5 with pc := 0x202 } ∧
    FetchesSentinel .step (statesFrom steps shortProgram 2) ∧ ¬ EndsAt steps (statesFrom steps shortProgram) 2 := by
  have fresh : ¬ FetchesSentinel .step (statesFrom steps shortProgram 0) := fun h => absurd h.2 (by decide)
  have first : FetchesSentinel .step (statesFrom steps shortProgram 1) := ⟨⟨rfl, rfl, rfl⟩, rfl⟩
  refine ⟨⟨first, fun m hm => ?_⟩, by decide, ⟨⟨rfl, rfl, rfl⟩, rfl⟩, fun h => (h.2 1 (by decide)).1 first⟩
  obtain rfl : m = 0 := by omega
  exact ⟨fresh, rfl⟩

/-- A step that faults, a reset, and steps. -/
def faultThenReset : Nat → Event
  | 1 => .reset []
  | _ => .step

/-- R350: a run that came to be Faulted and was reset fetches the sentinel afterwards, and has no end there. -/
theorem test_run_faulted_then_reset_has_no_end :
    let states := statesFrom faultThenReset { r0 with pc := 0xFFF }
    (states 1).faultOut = some (.addressOutOfRange 0x1000 0xFFF) ∧ FetchesSentinel (faultThenReset 2) (states 2) ∧
    ¬ EndsAt faultThenReset states 2 := by
  refine ⟨rfl, ⟨⟨rfl, rfl, rfl⟩, rfl⟩, fun h => ?_⟩
  exact absurd (h.2 1 (by decide)).2 (by decide)

/-- A state at the end under each policy; a run that ends at its second step, and one that is Faulted before any sentinel;
and the run of the same events under the other policy. -/
theorem witness_TheSentinelEndsARunButNotTheBlock :
    (r0.AtEnd ∧ r0.zeroWordPolicy = .advance ∧ ({ r0 with pc := 0xFFE, zeroWordPolicy := .hold } : State).AtEnd) ∧
    (IsRun steps (statesFrom steps shortProgram) ∧ EndsAt steps (statesFrom steps shortProgram) 1) ∧
    ((statesFrom steps { r0 with pc := 0xFFF } 1).faultOut ≠ none ∧
      ∀ k, k < 1 → ¬ FetchesSentinel (steps k) (statesFrom steps { r0 with pc := 0xFFF } k)) ∧
    IsRun steps (statesFrom steps { shortProgram with zeroWordPolicy := .hold }) := by
  refine ⟨⟨⟨⟨rfl, rfl, rfl⟩, rfl⟩, rfl, ⟨⟨rfl, rfl, rfl⟩, rfl⟩⟩,
    ⟨statesFrom_isRun _ _, test_run_ends_at_the_first_sentinel.1⟩, ⟨by decide, fun k hk h => ?_⟩, statesFrom_isRun _ _⟩
  obtain rfl : k = 0 := by omega
  exact absurd h.2 (by decide)

/-- The three tasks in turn. -/
def inTurn (n : Nat) : Event :=
  match n % 3 with
  | 0 => .step
  | 1 => .tickDt
  | _ => .tickSt

theorem inTurn_fair (states : Nat → State) : WeaklyFair inTurn states := by
  intro _ e he n
  simp only [taskEvents, List.mem_cons, List.not_mem_nil, or_false] at he
  rcases he with rfl | rfl | rfl
  · exact ⟨3 * n, by omega, by simp [inTurn]⟩
  · exact ⟨3 * n + 1, by omega, by simp [inTurn, Nat.add_mod]⟩
  · exact ⟨3 * n + 2, by omega, by simp [inTurn, Nat.add_mod]⟩

/-- A block that waits, with both timers at their highest value. -/
def waiting : State := { r0 with mode := .waiting 3, dt := 0xFF, st := 0xFF }

theorem inTurn_waits (n : Nat) :
    (statesFrom inTurn waiting n).mode = .waiting 3 ∧ (statesFrom inTurn waiting n).enabled = true := by
  have hrun := statesFrom_isRun inTurn waiting
  refine hrun.induction (fun s => s.mode = .waiting 3 ∧ s.enabled = true) (n := 0) ⟨rfl, rfl⟩ ?_ n (Nat.zero_le n)
  rintro m - t ⟨hm, he⟩ ht
  generalize statesFrom inTurn waiting m = s at hm he ht
  unfold inTurn at ht
  split at ht
  · rw [applyEvent, engineStep_idle (by simp [hm])] at ht
    injection ht with ht
    subst ht
    exact ⟨hm, he⟩
  · obtain ⟨b, hb⟩ := tickDt_only s
    rw [applyEvent, hb] at ht
    injection ht with ht
    subst ht
    exact ⟨hm, he⟩
  · obtain ⟨b, hb⟩ := tickSt_only s
    rw [applyEvent, hb] at ht
    injection ht with ht
    subst ht
    exact ⟨hm, he⟩

/-- A fair run, enabled throughout, without a reset or a write of a timer. -/
theorem witness_FairRunsCountTheTimersDown :
    IsRun inTurn (statesFrom inTurn waiting) ∧ WeaklyFair inTurn (statesFrom inTurn waiting) ∧
    (∀ m, 0 ≤ m → (statesFrom inTurn waiting m).enabled = true) ∧ (∀ m, 0 ≤ m → ¬ (inTurn m).IsReset) ∧
    (∀ m x, 0 ≤ m → ¬ EventExecutes (inTurn m) (statesFrom inTurn waiting m) (.ldDtVx x)) ∧
    (∀ m x, 0 ≤ m → ¬ EventExecutes (inTurn m) (statesFrom inTurn waiting m) (.ldStVx x)) := by
  have idle : ∀ m i, ¬ EventExecutes (inTurn m) (statesFrom inTurn waiting m) i := by
    rintro m i ⟨⟨-, -, h⟩, -⟩
    rw [(inTurn_waits m).1] at h
    cases h
  refine ⟨statesFrom_isRun _ _, inTurn_fair _, fun m _ => (inTurn_waits m).2, fun m _ => ?_, fun m x _ => idle m _,
    fun m x _ => idle m _⟩
  rintro ⟨rom, h⟩
  unfold inTurn at h
  split at h <;> cases h

end Sys2Proof.Tests
end

section
/-! SUPPORT. The statements about the state itself: which registers an instruction writes and reads, who writes I, the
stack, the framebuffer and the timers, who reads the keys, and what the state after reset holds. -/

namespace Sys2Proof.Machine

/-! ## The registers an instruction writes (10_state.md R31, R33) -/

/-- A block load writes no register above `x`. -/
theorem State.getV_setRegs_readBytes_above (s : State) {x r : Reg} (h : x < r) (m : Memory) (a : Nat) :
    (s.setRegs (m.readBytes a (x.val + 1))).getV r = s.getV r := by
  have hlen : (m.readBytes a (x.val + 1)).length ≤ r.val := by rw [Memory.readBytes_length]; exact h
  rw [State.getV_setRegs, List.getD_eq_default _ _ hlen]

/-- The sentinel writes PC only, in both policies (40_step_and_control.md R133). -/
theorem effect_zero (s : State) :
    effect .zero s = { s with pc := if s.zeroWordPolicy = .hold then s.fetchAddr else s.pc } := by
  rw [effect]; split <;> rfl

/-- A skip writes PC only. -/
theorem State.skipIf_eq (s : State) (c : Bool) : s.skipIf c = { s with pc := if c then s.pc + 2 else s.pc } := by
  cases c <;> rfl

/-- An effect writes no register outside the destinations. -/
theorem effect_keeps_nonDestination (i : Instr) (s : State) {r : Reg} (hr : r ∉ destinations i) :
    (effect i s).getV r = s.getV r := by
  cases i with
  | ldVxKk x | addVxKk x | ldVxVy x | orVxVy x | andVxVy x | xorVxVy x | ldVxDt x =>
    exact s.getV_setV_ne (List.ne_of_not_mem_cons hr) _
  | rnd x => exact s.drawn.getV_setV_ne (List.ne_of_not_mem_cons hr) _
  | addVxVy x | subVxVy x | shr x | subnVxVy x | shl x =>
    obtain ⟨hx, hf⟩ := List.ne_and_not_mem_of_not_mem_cons hr
    exact s.getV_setResult_ne hx (List.ne_of_not_mem_cons hf) _ _
  | drw => exact State.getV_setFlag_ne _ (List.ne_of_not_mem_cons hr) _
  | ldVxMem x => exact s.getV_setRegs_readBytes_above (by simpa [destinations] using hr) _ _
  | zero => rw [effect_zero]; rfl
  | seVxKk | sneVxKk | seVxVy | sneVxVy | skp | sknp => exact State.getV_congr (State.skipIf_v _ _) r
  | _ => rfl

/-- An instruction writes no register outside its destinations, whether it raises an error or not. -/
theorem exec_keeps_nonDestinations {i : Instr} {s t : State} (h : exec i s = .next t) :
    RegsSameBut (destinations i) s t := by
  intro r hr
  rcases exec_cases h with ⟨e, _, rfl⟩ | ⟨_, rfl⟩
  · rfl
  · exact effect_keeps_nonDestination i s hr

/-- Settles O26: an error keeps every register, an effect every one outside the destinations. -/
theorem registersOutsideTheDestinationsAreKept : Obligations.RegistersOutsideTheDestinationsAreKept :=
  fun _ _ _ h => exec_keeps_nonDestinations h

/-- A flag-defining instruction writes VF last, as a flag. -/
theorem effect_vf_of_definesFlag {i : Instr} (hi : DefinesFlag i) (s : State) :
    ∃ f, (effect i s).getV regVF = flagByte f := by
  cases i with
  | addVxVy | subVxVy | shr | subnVxVy | shl => exact ⟨_, State.getV_setResult_vf _ _ _ _⟩
  | drw => exact ⟨_, State.getV_setFlag_vf _ _⟩
  | _ => exact hi.elim

/-- Settles O25: without an error a flag-defining instruction leaves VF as a flag byte; the other instructions keep VF as
any register outside their destinations. -/
theorem onlyFlagInstructionsDefineVf : Obligations.OnlyFlagInstructionsDefineVf := by
  intro i s t _ h
  refine ⟨fun hi hok => ?_, fun _ hvf => exec_keeps_nonDestinations h regVF hvf⟩
  rcases exec_cases h with ⟨e, _, rfl⟩ | ⟨_, rfl⟩
  · cases hok
  · obtain ⟨f, hf⟩ := effect_vf_of_definesFlag hi s
    rw [hf]
    cases f
    · exact .inl rfl
    · exact .inr rfl

/-! ## The registers an instruction reads (10_state.md R33) -/

/-- States that differ at most in the registers, which all read the same, are equal. -/
theorem State.eq_of_getV {s t : State} (h : t = { s with v := t.v }) (hv : ∀ r, t.getV r = s.getV r) : t = s := by
  rw [h, State.v_ext hv]

theorem State.setV_setV_same (s : State) (x : Reg) (b c : Byte) : (s.setV x b).setV x c = s.setV x c := by
  simp [State.setV]

theorem State.setV_setV_comm (s : State) {x r : Reg} (h : r ≠ x) (b c : Byte) :
    (s.setV r b).setV x c = (s.setV x c).setV r b := by
  simp only [State.setV, Vector.set_comm b c (fun e => h (Fin.ext e))]

/-- `t` is what `u` is, but that register `r` may have been given the value `b`. -/
def SameButGiven (r : Reg) (b : Byte) (t u : State) : Prop := t = u ∨ t = u.setV r b

/-- A write to a register either hides the value given before or stands beside it. -/
theorem SameButGiven.setV {r : Reg} {b : Byte} {t u : State} (h : SameButGiven r b t u) (x : Reg) (c : Byte) :
    SameButGiven r b (t.setV x c) (u.setV x c) := by
  rcases h with rfl | rfl
  · exact .inl rfl
  · by_cases hx : r = x
    · exact .inl (hx ▸ u.setV_setV_same _ _ _)
    · exact .inr (u.setV_setV_comm hx _ _)

theorem State.setV_sameButGiven (s : State) (r : Reg) (b : Byte) : SameButGiven r b (s.setV r b) s := .inr rfl

theorem SameButGiven.setResult {r : Reg} {b : Byte} {t u : State} (h : SameButGiven r b t u) (x : Reg) (c : Byte)
    (f : Bool) : SameButGiven r b (t.setResult x c f) (u.setResult x c f) :=
  (h.setV x c).setV regVF (flagByte f)

theorem State.regsUpTo_setV (s : State) {x r : Reg} (h : x < r) (b : Byte) :
    (s.setV r b).regsUpTo x = s.regsUpTo x := by
  rw [State.regsUpTo, State.setV_v, Vector.toList_set, List.take_set_of_le h, State.regsUpTo]

/-- A block load hides the value given to a register it writes, and leaves the value of any other. -/
theorem SameButGiven.setRegs {r : Reg} {b : Byte} {t u : State} (h : SameButGiven r b t u) (bytes : List Byte) :
    SameButGiven r b (t.setRegs bytes) (u.setRegs bytes) := by
  rcases h with rfl | rfl
  · exact .inl rfl
  · by_cases hr : r.val < bytes.length
    · refine .inl (State.eq_of_getV rfl fun k => ?_)
      by_cases hk : k = r
      · subst hk
        rw [State.getV_setRegs, State.getV_setRegs, List.getD_eq_getElem _ _ hr, List.getD_eq_getElem _ _ hr]
      · rw [State.getV_setRegs, State.getV_setRegs, u.getV_setV_ne hk]
    · refine .inr (State.eq_of_getV rfl fun k => ?_)
      by_cases hk : k = r
      · subst hk
        rw [State.getV_setRegs, List.getD_eq_default _ _ (by omega), State.getV_setV_same, State.getV_setV_same]
      · rw [State.getV_setV_ne _ hk, State.getV_setRegs, State.getV_setRegs, u.getV_setV_ne hk]

/-- No error depends on a register. -/
theorem errorOf_setV (i : Instr) (s : State) (r : Reg) (b : Byte) : errorOf i (s.setV r b) = errorOf i s := by
  cases i <;> rfl

/-- An effect does not depend on a register outside the sources. -/
theorem effect_setV {i : Instr} {r : Reg} (hr : r ∉ sources i) (s : State) (b : Byte) :
    SameButGiven r b (effect i (s.setV r b)) (effect i s) := by
  have hread : ∀ x ∈ sources i, (s.setV r b).getV x = s.getV x :=
    fun x hx => s.getV_setV_ne (ne_of_mem_of_not_mem hx hr) b
  have hs := s.setV_sameButGiven r b
  cases i with
  | ldVxKk x kk => exact hs.setV _ _
  | ldVxDt x => exact hs.setV _ _
  | rnd x kk => exact (s.drawn.setV_sameButGiven r b).setV _ _
  | ldVxMem x => exact hs.setRegs _
  | addVxKk x | ldVxVy x y | orVxVy x y | andVxVy x y | xorVxVy x y =>
    simp only [sources, List.forall_mem_cons] at hread
    simp only [effect, hread]
    exact hs.setV _ _
  | addVxVy x y | subVxVy x y | shr x y | subnVxVy x y | shl x y =>
    simp only [sources, List.forall_mem_cons] at hread
    simp only [effect, hread]
    exact hs.setResult _ _ _
  | drw x y n =>
    simp only [sources, List.forall_mem_cons] at hread
    simp only [effect, hread]
    have hfb (fb : Framebuffer) : SameButGiven r b { s.setV r b with fb := fb } { s with fb := fb } := .inr rfl
    exact (hfb _).setV regVF _
  | zero => right; rw [effect_zero, effect_zero]; rfl
  | seVxKk x | sneVxKk x | seVxVy x y | sneVxVy x y | skp x | sknp x =>
    right
    simp only [sources, List.forall_mem_cons] at hread
    simp only [effect, hread, State.skipIf_eq]
    rfl
  | ldMemVx x =>
    right
    have hx : x < r := by simpa [sources] using hr
    simp only [effect, s.regsUpTo_setV hx]
    rfl
  | jpV0Nnn | ldDtVx | ldStVx | addIVx | ldFVx | ldBVx =>
    right
    simp only [sources, List.forall_mem_cons] at hread
    simp only [effect, hread]
    rfl
  | _ => exact .inr rfl

/-- Settles O27: neither the error nor the effect depends on a register outside the sources. -/
theorem registersOutsideTheSourcesAreNotRead : Obligations.RegistersOutsideTheSourcesAreNotRead := by
  intro i s t r b hr h
  rw [exec_eq, errorOf_setV]
  rcases exec_cases h with ⟨e, he, rfl⟩ | ⟨he, rfl⟩
  · rw [he]
    exact .inr rfl
  · rw [he]
    exact (effect_setV hr s b).imp (congrArg _) (congrArg _)

/-! ## The keys (10_state.md R47; 44_timers_input.md R270, R271) -/

/-- No error depends on the keys. -/
theorem errorOf_withKeys (i : Instr) (s : State) (held : BitVec 16) :
    errorOf i { s with keys := held } = errorOf i s := by
  cases i <;> rfl

/-- Beside the two key skips no effect depends on the keys. -/
theorem effect_withKeys {i : Instr} (hp : ∀ x, i ≠ .skp x) (hn : ∀ x, i ≠ .sknp x) (s : State) (held : BitVec 16) :
    effect i { s with keys := held } = { effect i s with keys := held } := by
  cases i with
  | skp x => exact absurd rfl (hp x)
  | sknp x => exact absurd rfl (hn x)
  | zero => rw [effect_zero, effect_zero]; rfl
  | seVxKk | sneVxKk | seVxVy | sneVxVy => simp only [effect, State.skipIf_eq]; rfl
  | _ => rfl

/-- Settles O47: neither the error nor, beside the key skips, the effect depends on the keys. -/
theorem onlyKeySkipsReadTheKeys : Obligations.OnlyKeySkipsReadTheKeys := by
  intro i s t held hp hn h
  rw [exec_eq, errorOf_withKeys, effect_withKeys hp hn]
  rcases exec_cases h with ⟨e, he, rfl⟩ | ⟨he, rfl⟩
  · rw [he]; rfl
  · rw [he]

/-! ## Who writes I, the stack, the framebuffer and the timers (10_state.md R36, R39 to R42) -/

/-- What a step that is no reset may write: one of I, the stack, the framebuffer, DT and ST, each by the instructions or
the event the spec names for it, or none of the five. -/
inductive StepWrites (s : State) : State → Prop
  | index {p w}
      (writer : (∃ nnn, Executes s (.ldINnn nnn)) ∨ (∃ x, Executes s (.addIVx x)) ∨ ∃ x, Executes s (.ldFVx x)) :
      StepWrites s { s.popEvent with pc := p, i := w }
  | stack {p l} (writer : (∃ nnn, Executes s (.call nnn)) ∨ Executes s .ret) :
      StepWrites s { s.popEvent with pc := p, stack := l }
  | framebuffer {v p f} (writer : Executes s .cls ∨ ∃ x y n, Executes s (.drw x y n)) :
      StepWrites s { s.popEvent with v := v, pc := p, fb := f }
  | delay {p b} (writer : s.nextEvent = .tickDt ∨ ∃ x, Executes s (.ldDtVx x)) :
      StepWrites s { s.popEvent with pc := p, dt := b }
  | sound {p b} (writer : s.nextEvent = .tickSt ∨ ∃ x, Executes s (.ldStVx x)) :
      StepWrites s { s.popEvent with pc := p, st := b }
  | other {v p mem m en k n d} :
      StepWrites s { s.popEvent with
        v := v, pc := p, mem := mem, mode := m, enabled := en, keys := k, rngDraws := n, diagLog := d }

/-- The effect of the instruction a step executes. -/
theorem stepWrites_effect {s : State} {i : Instr} (hx : Executes s i) :
    StepWrites s (effect i s.popEvent.advancePc) := by
  cases i with
  | ldINnn => exact .index (.inl ⟨_, hx⟩)
  | addIVx => exact .index (.inr (.inl ⟨_, hx⟩))
  | ldFVx => exact .index (.inr (.inr ⟨_, hx⟩))
  | call => exact .stack (.inl ⟨_, hx⟩)
  | ret => exact .stack (.inr hx)
  | cls => exact .framebuffer (.inl hx)
  | drw => exact .framebuffer (.inr ⟨_, _, _, hx⟩)
  | ldDtVx => exact .delay (.inr ⟨_, hx⟩)
  | ldStVx => exact .sound (.inr ⟨_, hx⟩)
  | zero => rw [effect_zero]; exact .other
  | seVxKk | sneVxKk | seVxVy | sneVxVy | skp | sknp => simp only [effect, State.skipIf_eq]; exact .other
  | _ => exact .other

/-- Every step that is no reset writes at most one of the five. -/
theorem stepWrites_of_step {s t : State} (hs : step s = .next t) (hr : ¬ s.nextEvent.IsReset) : StepWrites s t := by
  rcases step_cases hs fun rom h => hr ⟨rom, h⟩ with
    ⟨hw, hpc, -, rfl⟩ | ⟨-, e, p, rfl⟩ | ⟨-, -, rfl⟩ | ⟨he, rfl⟩ | ⟨he, rfl⟩ | ⟨id, -, rfl⟩ | ⟨id, -, rfl⟩ |
    ⟨-, rfl⟩ | ⟨-, rfl⟩
  · exact stepWrites_effect ⟨hw, hpc, rfl⟩
  · exact .other
  · exact .other
  · obtain ⟨b, hb⟩ := tickDt_only s.popEvent
    rw [hb]; exact .delay (.inl he)
  · obtain ⟨b, hb⟩ := tickSt_only s.popEvent
    rw [hb]; exact .sound (.inl he)
  · obtain ⟨v, m, hk⟩ := keyDown_only id s.popEvent
    rw [hk]; exact .other
  · exact .other
  · exact .other
  · exact .other

/-- Settles O35: a step writes I, the stack or the framebuffer only by the instructions of `StepWrites`. -/
theorem writersOfIndexStackAndFramebuffer : Obligations.WritersOfIndexStackAndFramebuffer := by
  intro s t hs hr
  cases stepWrites_of_step hs hr with
  | index hx => exact ⟨fun _ => hx, absurd rfl, absurd rfl⟩
  | stack hx => exact ⟨absurd rfl, fun _ => hx, absurd rfl⟩
  | framebuffer hx => exact ⟨absurd rfl, absurd rfl, fun _ => hx⟩
  | delay | sound | other => exact ⟨absurd rfl, absurd rfl, absurd rfl⟩

/-- Settles O36: a step writes a timer only by the tick or the instruction of `StepWrites`. -/
theorem writersOfTheTimers : Obligations.WritersOfTheTimers := by
  intro s t hs hr
  cases stepWrites_of_step hs hr with
  | delay hx => exact ⟨fun _ => hx, absurd rfl⟩
  | sound hx => exact ⟨absurd rfl, fun _ => hx⟩
  | index | stack | framebuffer | other => exact ⟨absurd rfl, absurd rfl⟩

/-! ## The state after reset (10_state.md R48) -/

theorem reset_getV (r : Reg) : State.reset.getV r = 0 := Vector.getElem_replicate _

theorem reset_pixel (x : Fin 64) (y : Fin 32) : State.reset.fb.pixel x y = false := by
  simp [Framebuffer.pixel, State.reset]

/-- After power-on with the empty ROM every byte is unlisted. -/
theorem reset_read (a : Nat) : State.reset.mem.read a = Memory.unlisted a := rfl

/-- Settles O55: the registers, the pixels and the memory by their own laws, the other fields by the definition. -/
theorem resetStateHoldsTheTable : Obligations.ResetStateHoldsTheTable :=
  ⟨reset_getV, rfl, rfl, rfl, rfl, rfl, reset_pixel,
    fun k => (reset_read _).trans (Memory.unlisted_font k),
    fun a h => (reset_read a).trans (Memory.unlisted_zero h), rfl, rfl⟩

/-- Settles O57: no cell is listed, the stack is empty, the mode is Running. -/
theorem resetMeetsTheInvariant : Obligations.ResetMeetsTheInvariant :=
  ⟨reset_mem_wf, Nat.zero_le 16, rfl⟩

end Sys2Proof.Machine
end

section
/-! SUPPORT. Decoding and the rows of the opcode map (30_encoding.md R104, R105): a word of a row decodes to the row's
instruction, so an unknown instruction that was decoded holds an unknown word. -/

namespace Sys2Proof.Laws

/-! ## Each mask of R104, by the fields it keeps -/

theorem matchesWord_FFFF {r : OpcodeRow} (hm : r.mask = 0xFFFF#16) (op : Word) :
    r.matchesWord op = true ↔ op = r.pattern := by
  rw [OpcodeRow.matchesWord, hm, beq_iff_eq, show (0xFFFF#16) = BitVec.allOnes 16 from rfl, BitVec.and_allOnes]

theorem matchesWord_F000 {r : OpcodeRow} (hm : r.mask = 0xF000#16) (op : Word) :
    r.matchesWord op = true ↔ (opFamily op).toNat * 0x1000 = r.pattern.toNat := by
  rw [OpcodeRow.matchesWord, hm, beq_iff_eq, ← BitVec.toNat_inj, and_F000_toNat, opFamily_toNat]

theorem matchesWord_F00F {r : OpcodeRow} (hm : r.mask = 0xF00F#16) (op : Word) :
    r.matchesWord op = true ↔ (opFamily op).toNat * 0x1000 + (fieldN op).val = r.pattern.toNat := by
  rw [OpcodeRow.matchesWord, hm, beq_iff_eq, ← BitVec.toNat_inj, and_F00F_toNat, opFamily_toNat, fieldN_val]

theorem matchesWord_F0FF {r : OpcodeRow} (hm : r.mask = 0xF0FF#16) (op : Word) :
    r.matchesWord op = true ↔ (opFamily op).toNat * 0x1000 + (fieldKk op).toNat = r.pattern.toNat := by
  rw [OpcodeRow.matchesWord, hm, beq_iff_eq, ← BitVec.toNat_inj, and_F0FF_toNat, opFamily_toNat, fieldKk_toNat]

/-! ## The rows of each mask, by the fields of their patterns -/

/-- The rows that fix every nibble. -/
theorem decodeWord_pattern_of_FFFF : ∀ r ∈ opcodeRows, r.mask = 0xFFFF#16 →
    (decodeWord r.pattern).mnemonic = r.mnemonic := by
  decide

/-- The rows that fix the family. -/
theorem decodeWord_mnemonic_of_F000 {op : Word} : ∀ r ∈ opcodeRows, r.mask = 0xF000#16 →
    (opFamily op).toNat = r.pattern.toNat / 0x1000 → (decodeWord op).mnemonic = r.mnemonic := by
  simp only [opcodeRows, opcodeRowsLow, opcodeRowsAlu, opcodeRowsMid, opcodeRowsHigh, List.forall_mem_append,
    List.forall_mem_cons, List.not_mem_nil, false_imp_iff, true_imp_iff, implies_true, and_true, true_and,
    BitVec.reduceEq, BitVec.reduceToNat, Nat.reduceDiv]
  and_intros
  all_goals
    intro hf
    rw [decodeWord, hf]
    rfl

/-- The rows that fix the family and the low nibble. -/
theorem decodeWord_mnemonic_of_F00F {op : Word} : ∀ r ∈ opcodeRows, r.mask = 0xF00F#16 →
    (opFamily op).toNat = r.pattern.toNat / 0x1000 → (fieldN op).val = r.pattern.toNat % 0x1000 →
    (decodeWord op).mnemonic = r.mnemonic := by
  simp only [opcodeRows, opcodeRowsLow, opcodeRowsAlu, opcodeRowsMid, opcodeRowsHigh, List.forall_mem_append,
    List.forall_mem_cons, List.not_mem_nil, false_imp_iff, true_imp_iff, implies_true, and_true, true_and,
    BitVec.reduceEq, BitVec.reduceToNat, Nat.reduceDiv, Nat.reduceMod]
  and_intros
  all_goals
    intro hf hn
    simp only [decodeWord, hf, decodeFamily8, hn, if_true]
    rfl

/-- The rows that fix the family and the low byte. -/
theorem decodeWord_mnemonic_of_F0FF {op : Word} : ∀ r ∈ opcodeRows, r.mask = 0xF0FF#16 →
    (opFamily op).toNat = r.pattern.toNat / 0x1000 → (fieldKk op).toNat = r.pattern.toNat % 0x1000 →
    (decodeWord op).mnemonic = r.mnemonic := by
  simp only [opcodeRows, opcodeRowsLow, opcodeRowsAlu, opcodeRowsMid, opcodeRowsHigh, List.forall_mem_append,
    List.forall_mem_cons, List.not_mem_nil, false_imp_iff, true_imp_iff, implies_true, and_true, true_and,
    BitVec.reduceEq, BitVec.reduceToNat, Nat.reduceDiv, Nat.reduceMod]
  and_intros
  all_goals
    intro hf hk
    simp only [decodeWord, hf, decodeFamilyE, decodeFamilyF, hk]
    rfl

theorem opcodeRows_mask_cases : ∀ r ∈ opcodeRows,
    r.mask = 0xFFFF#16 ∨ r.mask = 0xF000#16 ∨ r.mask = 0xF00F#16 ∨ r.mask = 0xF0FF#16 := by
  decide

/-- A word of a row decodes to an instruction of that row. -/
theorem decodeWord_mnemonic_of_matchesWord {r : OpcodeRow} (hr : r ∈ opcodeRows) {op : Word}
    (h : r.matchesWord op = true) : (decodeWord op).mnemonic = r.mnemonic := by
  rcases opcodeRows_mask_cases r hr with hm | hm | hm | hm
  · rw [(matchesWord_FFFF hm op).mp h]
    exact decodeWord_pattern_of_FFFF r hr hm
  · have hp := (matchesWord_F000 hm op).mp h
    exact decodeWord_mnemonic_of_F000 r hr hm (by omega)
  · have hp := (matchesWord_F00F hm op).mp h
    exact decodeWord_mnemonic_of_F00F r hr hm (by omega) (by omega)
  · have hp := (matchesWord_F0FF hm op).mp h
    exact decodeWord_mnemonic_of_F0FF r hr hm (by omega) (by omega)

/-! ## The unknown words (R105) -/

theorem opcodeRows_mnemonic_ne_unknown : ∀ r ∈ opcodeRows, r.mnemonic ≠ "UNKNOWN" := by
  decide

theorem decodeFamily0_unknown {op w : Word} (h : decodeFamily0 op = .unknown w) : w = op := by
  unfold decodeFamily0 at h
  split_ifs at h
  injection h with h
  exact h.symm

theorem decodeFamily8_unknown {op w : Word} (h : decodeFamily8 op = .unknown w) : w = op := by
  unfold decodeFamily8 at h
  split at h <;> simp_all

theorem decodeFamilyE_unknown {op w : Word} (h : decodeFamilyE op = .unknown w) : w = op := by
  unfold decodeFamilyE at h
  split at h <;> simp_all

theorem decodeFamilyF_unknown {op w : Word} (h : decodeFamilyF op = .unknown w) : w = op := by
  unfold decodeFamilyF at h
  split at h <;> simp_all

theorem decodeWord_unknown {op w : Word} (h : decodeWord op = .unknown w) : w = op := by
  unfold decodeWord at h
  split at h
  case h_1 => exact decodeFamily0_unknown h
  case h_9 => exact decodeFamily8_unknown h
  case h_15 => exact decodeFamilyE_unknown h
  case h_16 => exact decodeFamilyF_unknown h
  case h_6 | h_10 =>
    split_ifs at h
    injection h with h
    exact h.symm
  all_goals cases h

/-- A word that decodes as unknown is of no row. -/
theorem knownWord_of_decodeWord_unknown {op w : Word} (h : decodeWord op = .unknown w) : knownWord op = false := by
  by_contra hk
  rw [Bool.not_eq_false, knownWord, List.any_eq_true] at hk
  obtain ⟨r, hr, hop⟩ := hk
  have hname := decodeWord_mnemonic_of_matchesWord hr hop
  rw [h] at hname
  exact opcodeRows_mnemonic_ne_unknown r hr hname.symm

/-- The decoder gives only well-formed instructions. -/
theorem decodeWord_wellFormed (op : Word) : (decodeWord op).wellFormed = true := by
  cases h : decodeWord op with
  | unknown w =>
    rw [Instr.wellFormed, decodeWord_unknown h, knownWord_of_decodeWord_unknown h, Bool.not_false]
  | _ => rfl

end Sys2Proof.Laws
end

section
/-! SUPPORT. The statements about memory: what a step keeps of the invariant, that a stored byte is the byte a fetch reads,
and that the font pointer of a digit finds its glyph after a reset. -/

namespace Sys2Proof.Machine

/-! ## The invariant: what it depends on -/

/-- What an error's info says of a state depends on the stack and on STRICT_UNKNOWN only. -/
theorem FatalError.consistent_congr {s t : State} (hstack : t.stack = s.stack)
    (hstrict : t.strictUnknown = s.strictUnknown) (e : FatalError) : e.consistent t = e.consistent s := by
  cases e <;> simp only [FatalError.consistent, hstack, hstrict]

/-- A mode that is not Faulted fits every state. -/
theorem State.mode_consistent_of_safe {t : State} (h : t.Safe) : t.mode.consistent t = true := by
  cases hm : t.mode with
  | faulted e => simp [State.Safe, State.faultOut, hm] at h
  | _ => rfl

/-- A state that keeps memory, stack and STRICT_UNKNOWN keeps the invariant, if it is in no fault or in the same mode. -/
theorem State.Inv.of_kept {s t : State} (h : s.Inv) (hmem : t.mem = s.mem) (hstack : t.stack = s.stack)
    (hstrict : t.strictUnknown = s.strictUnknown) (hmode : t.Safe ∨ t.mode = s.mode) : t.Inv := by
  obtain ⟨hwf, hdepth, hcons⟩ := h
  refine ⟨hmem ▸ hwf, hstack ▸ hdepth, ?_⟩
  rcases hmode with hsafe | hmode
  · exact State.mode_consistent_of_safe hsafe
  · rw [hmode]
    cases hm : s.mode with
    | faulted e =>
      rw [hm] at hcons
      exact (FatalError.consistent_congr hstack hstrict e).trans hcons
    | _ => rfl

/-- A fatal error whose info fits the state keeps the invariant. -/
theorem State.Inv.faultWith {s : State} (h : s.Inv) {e : FatalError} (he : e.consistent s = true) :
    (s.faultWith e).Inv := by
  obtain ⟨hwf, hdepth, -⟩ := h
  exact ⟨hwf, hdepth, (FatalError.consistent_congr rfl rfl e).trans he⟩

/-! ## An instruction keeps the invariant -/

theorem addressOutOfRange_consistent (s : State) (a : Nat) (pc : Word) :
    (FatalError.addressOutOfRange (max a 0x1000) pc).consistent s = true :=
  decide_eq_true (by omega)

theorem rangeError_consistent {a n : Nat} {s : State} {e : FatalError} (h : rangeError a n s = some e) :
    e.consistent s = true := by
  obtain ⟨-, -, rfl⟩ := rangeError_some h
  exact addressOutOfRange_consistent s a _

/-- The error a well-formed instruction raises fits the state it is raised in (60_exceptions.md R300). -/
theorem errorOf_consistent {i : Instr} {s : State} {e : FatalError} (hi : i.wellFormed = true)
    (hdepth : s.stack.length ≤ 16) (h : errorOf i s = some e) : e.consistent s = true := by
  cases i with
  | ret =>
    obtain ⟨hempty, he⟩ := Option.ite_none_right_eq_some.mp h
    cases he
    exact List.isEmpty_iff.mpr hempty
  | call =>
    obtain ⟨hfull, he⟩ := Option.ite_none_right_eq_some.mp h
    cases he
    exact beq_iff_eq.mpr (by omega)
  | unknown op =>
    obtain ⟨hstrict, he⟩ := Option.ite_none_right_eq_some.mp h
    cases he
    exact Bool.and_eq_true_iff.mpr ⟨hstrict, hi⟩
  | drw | ldBVx | ldMemVx | ldVxMem => exact rangeError_consistent h
  | _ => cases h

/-- An effect stores inside the address space only (20_memory.md R70, R75). -/
theorem effect_mem_wf {i : Instr} {s : State} (hok : errorOf i s = none) (h : s.mem.wf = true) :
    (effect i s).mem.wf = true := by
  cases i with
  | ldBVx x =>
    have hin := rangeError_none hok
    exact Memory.writeBytes_wf _ _ _ (by simp only [decimalDigits, List.length_cons, List.length_nil, topAddr]; omega) h
  | ldMemVx x =>
    have hin := rangeError_none hok
    exact Memory.writeBytes_wf _ _ _ (by rw [State.regsUpTo_length, topAddr]; omega) h
  | zero => rw [effect_zero]; exact h
  | seVxKk | sneVxKk | seVxVy | sneVxVy | skp | sknp => rw [effect, State.skipIf_mem]; exact h
  | _ => exact h

/-- An effect pushes only where there is room (10_state.md R41). -/
theorem effect_stack_length {i : Instr} {s : State} (hok : errorOf i s = none) (h : s.stack.length ≤ 16) :
    (effect i s).stack.length ≤ 16 := by
  cases i with
  | call =>
    have hroom : ¬ 16 ≤ s.stack.length := fun hfull => by simp [errorOf, hfull] at hok
    simp only [effect, List.length_append, List.length_singleton]
    omega
  | ret =>
    simp only [effect, List.length_dropLast]
    omega
  | zero => rw [effect_zero]; exact h
  | seVxKk | sneVxKk | seVxVy | sneVxVy | skp | sknp => rw [effect, State.skipIf_stack]; exact h
  | _ => exact h

/-- A well-formed instruction keeps the invariant of a running block. -/
theorem exec_keeps_inv {i : Instr} {s t : State} (hi : i.wellFormed = true) (hrun : s.mode = .running) (h : s.Inv)
    (hx : exec i s = .next t) : t.Inv := by
  have ⟨hwf, hdepth, _⟩ := h
  rcases exec_cases hx with ⟨e, he, rfl⟩ | ⟨hok, rfl⟩
  · exact h.faultWith (errorOf_consistent hi hdepth he)
  · exact ⟨effect_mem_wf hok hwf, effect_stack_length hok hdepth,
      State.mode_consistent_of_safe (effect_faultOut i hrun)⟩

/-! ## Every event keeps the invariant -/

/-- A step event: no effect, the fetch fault, or a decoded instruction, which is well-formed. -/
theorem engineStep_keeps_inv {s t : State} (h : s.Inv) (hx : engineStep s = .next t) : t.Inv := by
  rcases engineStep_cases s with ⟨-, he⟩ | ⟨-, -, he⟩ | ⟨⟨-, hrun⟩, -, he⟩ <;> rw [he] at hx
  · cases hx
    exact h
  · cases hx
    exact h.faultWith (addressOutOfRange_consistent s _ _)
  · have hadv : s.advancePc.Inv := h.of_kept rfl rfl rfl (.inr rfl)
    exact exec_keeps_inv (s := s.advancePc) (Laws.decodeWord_wellFormed _) hrun hadv hx

/-- A key press leaves the mode or ends a wait. -/
theorem keyDown_keeps_inv (id : KeyId) {s : State} (h : s.Inv) : (keyDown id s).Inv := by
  rcases endWait_cases id (s.keys.getLsbD id.val) { s with keys := s.keys ||| keyMask id } with
    ⟨x, -, -, -, he⟩ | ⟨-, he⟩ <;> rw [keyDown, he]
  · exact h.of_kept rfl rfl rfl (.inl rfl)
  · exact h.of_kept rfl rfl rfl (.inr rfl)

theorem resetWith_refused {rom : List Byte} (h : romMax < rom.length) (s : State) : resetWith rom s = s :=
  if_pos h

theorem resetWith_accepted {rom : List Byte} (h : rom.length ≤ romMax) (s : State) :
    resetWith rom s = { s with
      v := Vector.replicate 16 0, i := 0, dt := 0, st := 0, pc := 0x0200, stack := [], fb := Framebuffer.cleared,
      mem := Memory.writeBytes [] romBase rom, mode := .running } :=
  if_neg (Nat.not_lt.mpr h)

/-- A reset is refused, or it empties the stack and sets the mode to Running. -/
theorem resetWith_keeps_inv (rom : List Byte) {s : State} (h : s.Inv) : (resetWith rom s).Inv := by
  rcases Nat.lt_or_ge romMax rom.length with hlen | hlen
  · rwa [resetWith_refused hlen]
  · obtain ⟨hwf, -, -⟩ := h
    have hmem := resetWith_mem_wf rom hwf
    rw [resetWith_accepted hlen] at hmem ⊢
    exact ⟨hmem, Nat.zero_le 16, rfl⟩

/-- Settles O58: taking the event from the schedule keeps the invariant, and so does applying it. -/
theorem everyStepKeepsTheInvariant : Obligations.EveryStepKeepsTheInvariant := by
  intro s t h hs
  have hpop : s.popEvent.Inv := h.of_kept rfl rfl rfl (.inr rfl)
  rcases step_event_cases hs with ⟨-, hx⟩ | ⟨-, rfl⟩ | ⟨-, rfl⟩ | ⟨id, -, rfl⟩ | ⟨id, -, rfl⟩ | ⟨rom, -, rfl⟩ |
    ⟨-, rfl⟩ | ⟨-, rfl⟩
  · exact engineStep_keeps_inv hpop hx
  · obtain ⟨b, hb⟩ := tickDt_only s.popEvent
    rw [hb]; exact hpop.of_kept rfl rfl rfl (.inr rfl)
  · obtain ⟨b, hb⟩ := tickSt_only s.popEvent
    rw [hb]; exact hpop.of_kept rfl rfl rfl (.inr rfl)
  · exact keyDown_keeps_inv id hpop
  · exact hpop.of_kept rfl rfl rfl (.inr rfl)
  · exact resetWith_keeps_inv rom hpop
  · exact hpop.of_kept rfl rfl rfl (.inr rfl)
  · exact hpop.of_kept rfl rfl rfl (.inr rfl)

/-! ## A stored byte is the byte a fetch reads (20_memory.md R82) -/

/-- A byte inside the address space is the upper half of the word at its address and the lower half of the word at the
address before (20_memory.md R74). -/
theorem fetchReads_of_read {m : Memory} {a b : Nat} (ha : a ≤ 0xFFF) (h : (m.read a).toNat = b) : FetchReads m a b := by
  subst h
  intro u hu
  refine ⟨fun hpc htop => ⟨_, fetch_ok (by omega), ?_⟩, fun hpc => ⟨_, fetch_ok (by omega), ?_⟩⟩ <;>
    rw [Memory.fetchWord_toNat, hu, hpc]
  · have hlow := (m.read (a + 1)).isLt
    omega
  · have hhigh := (m.read a).isLt
    omega

/-- Fx55 in range (42_index_memory.md R214). -/
theorem exec_ldMemVx_inside {x : Reg} {s : State} (h : s.i.toNat + x.val ≤ 0xFFF) :
    exec (.ldMemVx x) s = .next { s with mem := s.mem.writeBytes s.i.toNat (s.regsUpTo x) } :=
  withRange_inside (.inr (by rw [State.dataAddr]; omega)) _ _

/-- Fx33 in range (42_index_memory.md R213). -/
theorem exec_ldBVx_inside {x : Reg} {s : State} (h : s.i.toNat + 2 ≤ 0xFFF) :
    exec (.ldBVx x) s = .next { s with mem := s.mem.writeBytes s.i.toNat (decimalDigits (s.getV x)) } :=
  withRange_inside (.inr (by rw [State.dataAddr]; omega)) _ _

theorem Memory.read_writeBytes_regsUpTo (m : Memory) (a : Nat) (s : State) {x k : Reg} (h : k ≤ x) :
    (m.writeBytes a (s.regsUpTo x)).read (a + k.val) = s.getV k := by
  have hk : k.val < (s.regsUpTo x).length := by rw [State.regsUpTo_length]; exact Nat.lt_succ_of_le h
  rw [Memory.read_writeBytes_inside _ _ _ _ hk, State.regsUpTo_getElem]

/-- The digits Fx33 stores, as numbers. -/
theorem Memory.read_writeBytes_decimalDigits (m : Memory) (a : Nat) (b : Byte) :
    ((m.writeBytes a (decimalDigits b)).read a).toNat = b.toNat / 100 ∧
    ((m.writeBytes a (decimalDigits b)).read (a + 1)).toNat = b.toNat / 10 % 10 ∧
    ((m.writeBytes a (decimalDigits b)).read (a + 2)).toNat = b.toNat % 10 := by
  have hb := b.isLt
  simp only [decimalDigits, Memory.writeBytes, Memory.read_write, Nat.left_eq_add, Nat.add_right_cancel_iff, if_true,
    if_false, Nat.add_assoc, Nat.reduceAdd, Nat.reduceEqDiff, reduceCtorEq, Nat.add_left_cancel_iff]
  refine ⟨?_, ?_, ?_⟩ <;> exact Nat.mod_eq_of_lt (by omega)

/-- Settles O33: the store leaves each byte at its address, and a fetch reads it from there. -/
theorem storedBytesAreFetched : Obligations.StoredBytesAreFetched := by
  intro x s
  refine ⟨fun h => ⟨_, exec_ldMemVx_inside h, fun k hk => ?_⟩, fun h => ⟨_, exec_ldBVx_inside h, ?_⟩⟩
  · have hkx : k.val ≤ x.val := hk
    exact fetchReads_of_read (by omega) (congrArg _ (Memory.read_writeBytes_regsUpTo _ _ s hk))
  · obtain ⟨hundreds, tens, ones⟩ := Memory.read_writeBytes_decimalDigits s.mem s.i.toNat (s.getV x)
    exact ⟨fetchReads_of_read (by omega) hundreds, fetchReads_of_read (by omega) tens, fetchReads_of_read h ones⟩

/-! ## The glyph of a digit -/

/-- The address of a digit's glyph (42_index_memory.md R212). -/
theorem glyphAddr_toNat (b : Byte) : (glyphAddr b).toNat = Config.fontBase.val + b.toNat * 5 := by
  have := b.isLt
  have := fontBase_room
  rw [glyphAddr, BitVec.toNat_ofNat, fontBaseAddr, Nat.mod_eq_of_lt (by omega)]

/-- The ROM lies above the font, so an accepted reset leaves the font's bytes (20_memory.md R71). -/
theorem resetWith_read_font {rom : List Byte} (h : rom.length ≤ romMax) (s : State) (k : Fin 80) :
    (resetWith rom s).mem.read (Config.fontBase.val + k.val) = Config.fontData k := by
  have hroom := fontBase_room
  rw [resetWith_accepted h, Memory.read_writeBytes_outside _ _ _ _ (.inl (by rw [romBase]; omega))]
  exact Memory.unlisted_font k

theorem step_reset {s : State} {rom : List Byte} {rest : List Event} (h : s.schedule = .reset rom :: rest) :
    step s = .next (resetWith rom s.popEvent) := by
  rw [step_eq, nextEvent_cons h]; rfl

/-- Settles O56: Fx29 points I at byte 5 d of the font, whose bytes the reset leaves as FONT_DATA. -/
theorem fontPointerFindsTheGlyph : Obligations.FontPointerFindsTheGlyph := by
  intro s t u rom rest x d j hd hj hsched hlen hs hmem hx
  rw [step_reset hsched] at hs
  cases hs
  have hroom := fontBase_room
  have haddr : (glyphAddr (u.getV x)).toNat + j = Config.fontBase.val + (5 * d + j) := by
    rw [glyphAddr_toNat, hx]; omega
  refine ⟨{ u with i := glyphAddr (u.getV x) }, rfl, rfl, ?_, ?_⟩
  · rw [haddr, hmem]
    exact resetWith_read_font hlen s.popEvent ⟨5 * d + j, by omega⟩
  · rw [haddr]; omega

end Sys2Proof.Machine
end

section
/-! SUPPORT. Encoding (30_encoding.md R101 to R106): packing the fields of a word gives the word back, and the fields of
a packed word are what was packed, so decoding and encoding undo each other; a word of no row decodes as unknown, and
the unknown words are those of the table of R105. -/

/-! ## The row of an instruction's encoding -/

namespace Sys2Proof.Laws.RowOfEncoding

/-- The word of every well-formed instruction is of the row its mnemonic names. -/
theorem statement : (i : Instr) → Statement i
  | .zero => zero
  | .cls => cls
  | .ret => ret
  | .jp nnn => jp nnn
  | .call nnn => call nnn
  | .seVxKk x kk => seVxKk x kk
  | .sneVxKk x kk => sneVxKk x kk
  | .seVxVy x y => seVxVy x y
  | .ldVxKk x kk => ldVxKk x kk
  | .addVxKk x kk => addVxKk x kk
  | .ldVxVy x y => ldVxVy x y
  | .orVxVy x y => orVxVy x y
  | .andVxVy x y => andVxVy x y
  | .xorVxVy x y => xorVxVy x y
  | .addVxVy x y => addVxVy x y
  | .subVxVy x y => subVxVy x y
  | .shr x y => shr x y
  | .subnVxVy x y => subnVxVy x y
  | .shl x y => shl x y
  | .sneVxVy x y => sneVxVy x y
  | .ldINnn nnn => ldINnn nnn
  | .jpV0Nnn nnn => jpV0Nnn nnn
  | .rnd x kk => rnd x kk
  | .drw x y n => drw x y n
  | .skp x => skp x
  | .sknp x => sknp x
  | .ldVxDt x => ldVxDt x
  | .ldVxK x => ldVxK x
  | .ldDtVx x => ldDtVx x
  | .ldStVx x => ldStVx x
  | .addIVx x => addIVx x
  | .ldFVx x => ldFVx x
  | .ldBVx x => ldBVx x
  | .ldMemVx x => ldMemVx x
  | .ldVxMem x => ldVxMem x
  | .unknown op => unknown op

end Sys2Proof.Laws.RowOfEncoding

namespace Sys2Proof.Laws

/-- Every instruction but an unknown word has a row in the opcode map. -/
theorem unknown_or_row_of_mnemonic (i : Instr) :
    (∃ w, i = .unknown w) ∨ ∃ r ∈ opcodeRows, r.mnemonic = i.mnemonic := by
  cases i with
  | unknown w => exact .inl ⟨w, rfl⟩
  | _ => exact .inr (List.mem_map.mp (by simp only [Instr.mnemonic]; decide))

/-- A well-formed instruction is an unknown word, or its encoding is a known word. -/
theorem unknown_or_knownWord_encode {i : Instr} (hi : i.wellFormed = true) :
    (∃ w, i = .unknown w) ∨ knownWord (encode i) = true := by
  refine (unknown_or_row_of_mnemonic i).imp_right fun ⟨r, hr, hname⟩ => ?_
  exact List.any_eq_true.mpr ⟨r, hr, RowOfEncoding.statement i hi r hr hname⟩

/-! ## Packing the fields of a word gives the word -/

theorem packNnn_fields {f : Nat} {op : Word} (hf : (opFamily op).toNat = f) : packNnn f (fieldNnn op) = op := by
  subst hf
  apply BitVec.eq_of_toNat_eq
  rw [packNnn_toNat (opFamily op).isLt, opFamily_toNat, fieldNnn_toNat]
  omega

theorem packXkk_fields {f : Nat} {kk : Byte} {op : Word} (hf : (opFamily op).toNat = f)
    (hk : (fieldKk op).toNat = kk.toNat) : packXkk f (fieldX op) kk = op := by
  subst hf
  apply BitVec.eq_of_toNat_eq
  rw [packXkk_toNat (opFamily op).isLt, ← hk, opFamily_toNat, fieldX_val, fieldKk_toNat]
  omega

theorem packXyn_fields {f : Nat} {n : Fin 16} {op : Word} (hf : (opFamily op).toNat = f)
    (hn : (fieldN op).val = n.val) : packXyn f (fieldX op) (fieldY op) n = op := by
  subst hf
  apply BitVec.eq_of_toNat_eq
  rw [packXyn_toNat (opFamily op).isLt, ← hn, opFamily_toNat, fieldX_val, fieldY_val, fieldN_val]
  omega

/-! ## Encoding what was decoded -/

theorem encode_decodeFamily0 (op : Word) : encode (decodeFamily0 op) = op := by
  unfold decodeFamily0
  split_ifs with h0 h1 h2
  · exact h0.symm
  · exact h1.symm
  · exact h2.symm
  · rfl

theorem encode_decodeFamily8 {op : Word} (hf : (opFamily op).toNat = 8) : encode (decodeFamily8 op) = op := by
  unfold decodeFamily8
  split
  case h_10 => rfl
  all_goals
    rename_i hn
    exact packXyn_fields hf hn

theorem encode_decodeFamilyE {op : Word} (hf : (opFamily op).toNat = 0xE) : encode (decodeFamilyE op) = op := by
  unfold decodeFamilyE
  split
  case h_3 => rfl
  all_goals
    rename_i hk
    exact packXkk_fields hf hk

theorem encode_decodeFamilyF {op : Word} (hf : (opFamily op).toNat = 0xF) : encode (decodeFamilyF op) = op := by
  unfold decodeFamilyF
  split
  case h_10 => rfl
  all_goals
    rename_i hk
    exact packXkk_fields hf hk

/-- The encoding of a word's instruction is the word. -/
theorem encode_decodeWord (op : Word) : encode (decodeWord op) = op := by
  unfold decodeWord
  split
  case h_1 => exact encode_decodeFamily0 op
  case h_2 hf | h_3 hf | h_11 hf | h_12 hf => exact packNnn_fields hf
  case h_4 hf | h_5 hf | h_7 hf | h_8 hf | h_13 hf => exact packXkk_fields hf rfl
  case h_6 hf | h_10 hf =>
    split_ifs with hn
    · exact packXyn_fields hf hn
    · rfl
  case h_9 hf => exact encode_decodeFamily8 hf
  case h_14 hf => exact packXyn_fields hf rfl
  case h_15 hf => exact encode_decodeFamilyE hf
  case h_16 =>
    have hlt := (opFamily op).isLt
    simp only [imp_false] at *
    exact encode_decodeFamilyF (by omega)

/-- Settles O2: decoding keeps every field of the word, and it gives well-formed instructions only. -/
theorem everyWordIsTheEncodingOfItsInstruction : Obligations.EveryWordIsTheEncodingOfItsInstruction :=
  fun op => ⟨decodeWord_wellFormed op, encode_decodeWord op⟩

/-! ## Decoding what was encoded -/

/-- A word of no row decodes as unknown: an instruction of a row would have a known word for its encoding. -/
theorem decodeWord_of_not_knownWord {op : Word} (h : knownWord op = false) : decodeWord op = .unknown op := by
  rcases unknown_or_knownWord_encode (decodeWord_wellFormed op) with ⟨w, hw⟩ | hk
  · rw [hw, decodeWord_unknown hw]
  · rw [encode_decodeWord, h] at hk
    cases hk

theorem decodeWord_encode {i : Instr} (hi : i.wellFormed = true) : decodeWord (encode i) = i := by
  cases i
  case unknown op => exact decodeWord_of_not_knownWord (op := op) (by simpa [Instr.wellFormed] using hi)
  case zero | cls | ret => decide
  case jp | call | ldINnn | jpV0Nnn => simp [decodeWord, encode, opFamily_packNnn, fieldNnn_packNnn]
  case seVxKk | sneVxKk | ldVxKk | addVxKk | rnd =>
    simp [decodeWord, encode, opFamily_packXkk, fieldX_packXkk, fieldKk_packXkk]
  case seVxVy | sneVxVy | drw =>
    simp [decodeWord, encode, opFamily_packXyn, fieldX_packXyn, fieldY_packXyn, fieldN_packXyn]
  case ldVxVy | orVxVy | andVxVy | xorVxVy | addVxVy | subVxVy | shr | subnVxVy | shl =>
    simp [decodeWord, decodeFamily8, encode, opFamily_packXyn, fieldX_packXyn, fieldY_packXyn, fieldN_packXyn]
  case skp | sknp => simp [decodeWord, decodeFamilyE, encode, opFamily_packXkk, fieldX_packXkk, fieldKk_packXkk]
  all_goals simp [decodeWord, decodeFamilyF, encode, opFamily_packXkk, fieldX_packXkk, fieldKk_packXkk]

/-- Decoding the bytes of an instruction decodes its word and leaves the bytes after it. -/
theorem decode_encodeBytes_append (i : Instr) (rest : List Byte) :
    decode (encodeBytes i ++ rest) = .ok (decodeWord (encode i), rest) :=
  congrArg (fun op => Except.ok (decodeWord op, rest)) (wordOfBytes_split (encode i))

/-- Settles O1: the two bytes make up the word again, and the decoder reads the fields that were packed in it. -/
theorem decodingTheEncodingGivesTheInstruction : Obligations.DecodingTheEncodingGivesTheInstruction := by
  intro i rest hi
  rw [decode_encodeBytes_append, decodeWord_encode hi]

/-! ## The one row of a word -/

theorem opcodeRows_mnemonic_nodup : (opcodeRows.map (·.mnemonic)).Nodup := by
  decide

/-- Rows that match one word are the same row: the word decodes to one instruction, and no two rows share its name. -/
theorem matchesWord_unique {r₁ r₂ : OpcodeRow} (hr₁ : r₁ ∈ opcodeRows) (hr₂ : r₂ ∈ opcodeRows) {op : Word}
    (h₁ : r₁.matchesWord op = true) (h₂ : r₂.matchesWord op = true) : r₁ = r₂ :=
  List.inj_on_of_nodup_map opcodeRows_mnemonic_nodup hr₁ hr₂
    ((decodeWord_mnemonic_of_matchesWord hr₁ h₁).symm.trans (decodeWord_mnemonic_of_matchesWord hr₂ h₂))

/-- Settles O3: one row at most matches, decoding gives its instruction, and a word of no row is unknown. -/
theorem decodingSelectsTheOneMatchingRow : Obligations.DecodingSelectsTheOneMatchingRow :=
  fun _ => ⟨fun _ hr₁ _ hr₂ => matchesWord_unique hr₁ hr₂, fun _ hr => decodeWord_mnemonic_of_matchesWord hr,
    fun h => decodeWord_of_not_knownWord (List.any_eq_false.mpr fun r hr => by simp [h r hr])⟩

/-! ## The table of unknown words (R105) -/

theorem decodeFamily0_eq_unknown_iff (op : Word) :
    decodeFamily0 op = .unknown op ↔ op.toNat ≠ 0x0000 ∧ op.toNat ≠ 0x00E0 ∧ op.toNat ≠ 0x00EE := by
  unfold decodeFamily0
  split_ifs with h0 h1 h2
  · simp [h0]
  · simp [h1]
  · simp [h2]
  · simp only [true_iff]
    bv_omega

theorem decodeFamily8_eq_unknown_iff (op : Word) :
    decodeFamily8 op = .unknown op ↔ (fieldN op).val ∈ [8, 9, 0xA, 0xB, 0xC, 0xD, 0xF] := by
  have hlt := (fieldN op).isLt
  unfold decodeFamily8
  split
  case h_10 =>
    simp only [List.mem_cons, List.not_mem_nil, true_iff, imp_false] at *
    omega
  all_goals
    rename_i hn
    simp [hn]

theorem decodeFamilyE_eq_unknown_iff (op : Word) :
    decodeFamilyE op = .unknown op ↔ (fieldKk op).toNat ∉ [0x9E, 0xA1] := by
  unfold decodeFamilyE
  split
  case h_3 => simp_all
  all_goals
    rename_i hk
    simp [hk]

theorem decodeFamilyF_eq_unknown_iff (op : Word) :
    decodeFamilyF op = .unknown op ↔
      (fieldKk op).toNat ∉ [0x07, 0x0A, 0x15, 0x18, 0x1E, 0x29, 0x33, 0x55, 0x65] := by
  unfold decodeFamilyF
  split
  case h_10 => simp_all
  all_goals
    rename_i hk
    simp [hk]

/-- Settles O4: the line of the table is the word's family, and each family's decoder says which of its words are
unknown. -/
theorem unknownWordsAreThoseOfTheTable : Obligations.UnknownWordsAreThoseOfTheTable := by
  intro op
  simp only [← opFamily_toNat, ← fieldN_val, ← fieldKk_toNat]
  unfold decodeWord
  split
  case h_1 hf => simp [hf, decodeFamily0_eq_unknown_iff]
  case h_6 hf | h_10 hf => split_ifs with hn <;> simp [hf, hn]
  case h_9 hf => simp [hf, decodeFamily8_eq_unknown_iff]
  case h_15 hf => simp [hf, decodeFamilyE_eq_unknown_iff]
  case h_16 =>
    have hlt := (opFamily op).isLt
    simp only [imp_false] at *
    have hf : (opFamily op).toNat = 0xF := by omega
    simp [hf, decodeFamilyF_eq_unknown_iff]
  all_goals
    rename_i hf
    simp [hf]

/-- Settles O5: the decoder computes on a given word. -/
theorem sampleWordsDecodeAsTheOpcodeMapSays : Obligations.SampleWordsDecodeAsTheOpcodeMapSays := by
  unfold Obligations.SampleWordsDecodeAsTheOpcodeMapSays
  decide

end Sys2Proof.Laws
end

section
/-! SUPPORT. The step cycle and the control transfers (40_step_and_control.md): the event a step consumes, how a step that
has an effect ends, PC after it, and what the sentinel, RET, CALL, the jumps, the register skips and an unknown word do. -/

namespace Sys2Proof.Machine

/-! ## The fetch address and PC as numbers (R131; 10_state.md R37) -/

theorem State.fetchAddr_eq {s : State} {fa : Word} (h : s.pc = fa + 2) : s.fetchAddr = fa := by
  rw [State.fetchAddr, h, BitVec.add_sub_cancel]

theorem pc_toNat_eq_fetchAddr (s : State) : s.pc.toNat = (s.fetchAddr.toNat + 2) % 65536 := by
  rw [State.fetchAddr]
  bv_omega

theorem advanced_pc_toNat_eq_fetchAddr (s : State) : (s.pc + 2).toNat = (s.fetchAddr.toNat + 4) % 65536 := by
  rw [State.fetchAddr]
  bv_omega

theorem zext16_toNat (nnn : BitVec 12) : (zext16 nnn).toNat = nnn.toNat := by
  have hn := nnn.isLt
  rw [zext16, BitVec.toNat_setWidth, Nat.mod_eq_of_lt (by omega)]

theorem offsetTarget_toNat (nnn : BitVec 12) (b : Byte) : (offsetTarget nnn b).toNat = nnn.toNat + b.toNat := by
  have hn := nnn.isLt
  have hb := b.isLt
  rw [offsetTarget, BitVec.toNat_ofNat, Nat.mod_eq_of_lt (by omega)]

/-! ## The step cycle (R130 to R132) -/

theorem step_of_step_event {s : State} (h : s.nextEvent = .step) : step s = engineStep s.popEvent := by
  rw [step_eq, h]; rfl

theorem step_idle {s : State} (h : s.nextEvent = .step) (hidle : ¬ s.WillExecute) : step s = .next s.popEvent := by
  rw [step_of_step_event h]
  exact engineStep_idle fun hc => hidle ⟨h, hc⟩

theorem step_fetchFault {s : State} (h : s.WillExecute) (hpc : 0xFFF ≤ s.pc.toNat) :
    step s = .next (s.popEvent.faultWith (.addressOutOfRange (max s.pc.toNat 0x1000) s.pc)) := by
  rw [step_willExecute h]
  exact engineStep_fetchFault h.2 hpc

theorem step_run {s : State} (h : s.WillExecute) (hpc : s.pc.toNat ≤ 0xFFE) :
    step s = exec (decodeWord (s.mem.fetchWord s.pc.toNat)) s.popEvent.advancePc := by
  rw [step_willExecute h]
  exact engineStep_run h.2 hpc

/-- Settles O6: a step event is idle, faults on the fetch, or runs the word at PC. -/
theorem stepFetchesAdvancesAndRunsOnce : Obligations.StepFetchesAdvancesAndRunsOnce := by
  intro s hev
  refine ⟨fun hidle => step_idle hev ?_, fun hen hrun => ?_⟩
  · rintro ⟨-, hen, hrun⟩
    exact hidle.elim (by simp [hen]) (absurd hrun)
  · have hw : s.WillExecute := ⟨hev, hen, hrun⟩
    refine ⟨fun hpc => ?_, fun hpc => ?_, fun hpc => ?_⟩
    · rw [step_fetchFault hw hpc.le, Nat.max_eq_left hpc]
      rfl
    · rw [step_fetchFault hw hpc.ge, hpc]
      rfl
    · exact ⟨s.mem.fetchWord s.pc.toNat, s.pc + 2, Memory.fetchWord_toNat _ _, BitVec.toNat_add _ _,
        step_run hw (Nat.le_of_lt_succ hpc)⟩

/-- The word at an address that holds the bytes of an instruction is its encoding (20_memory.md R74). -/
theorem fetchWord_of_encodeBytes {i : Instr} {m : Memory} {a : Nat}
    (h : encodeBytes i = [m.read a, m.read (a + 1)]) : m.fetchWord a = encode i := by
  obtain ⟨hhigh, hlow⟩ : highByte (encode i) = m.read a ∧ lowByte (encode i) = m.read (a + 1) := by
    simpa [encodeBytes] using h
  rw [Memory.fetchWord, ← hhigh, ← hlow, Laws.wordOfBytes_split]

/-- Settles O7: the bytes at PC make up the encoding, which decodes to the instruction. -/
theorem stepRunsTheInstructionAtPc : Obligations.StepRunsTheInstructionAtPc := by
  intro s i hw hpc hi hbytes
  rw [step_run hw hpc, fetchWord_of_encodeBytes hbytes, Laws.decodeWord_encode hi]
  rfl

/-! ## How a step ends (R145) -/

theorem stepReport_faulted (s : State) {t : State} {e : FatalError} (h : t.mode = .faulted e) :
    stepReport s t = .fault e := by
  rw [stepReport, h]

theorem stepReport_waiting (s : State) {t : State} {x : Reg} (h : t.mode = .waiting x) : stepReport s t = .wait x := by
  rw [stepReport, h]

theorem stepReport_ok {s t : State} (h : t.mode = .running) (hlog : t.diagLog = s.diagLog) : stepReport s t = .ok := by
  simp [stepReport, h, hlog]

theorem stepReport_diag {s t : State} {d : DiagEvent} (h : t.mode = .running) (hlog : t.diagLog = s.diagLog ++ [d]) :
    stepReport s t = .diag d := by
  simp [stepReport, h, hlog]

/-- How a step with an effect can end: the mode it leaves, what it puts on the diagnostics channel, and the instruction
that is the reason. -/
inductive StepEnds (s t : State) : Prop
  | ok (mode : t.mode = .running) (log : t.diagLog = s.diagLog)
  | diag (d : DiagEvent) (mode : t.mode = .running) (lenient : s.strictUnknown = false)
      (executes : Executes s (.unknown d.word)) (addr : d.addr = s.pc) (log : t.diagLog = s.diagLog ++ [d])
  | wait (x : Reg) (mode : t.mode = .waiting x) (executes : Executes s (.ldVxK x)) (log : t.diagLog = s.diagLog)
  | fault (e : FatalError) (mode : t.mode = .faulted e) (log : t.diagLog = s.diagLog)

/-- The effect of the instruction a step executes ends the step without a fault. -/
theorem stepEnds_effect {s : State} {i : Instr} (hx : Executes s i) (hok : errorOf i s.popEvent.advancePc = none) :
    StepEnds s (effect i s.popEvent.advancePc) := by
  have hrun : s.mode = .running := hx.1.2.2
  rcases effect_mode i s.popEvent.advancePc with hmode | ⟨x, rfl, hmode⟩
  · rcases effect_diagLog i s.popEvent.advancePc with hlog | ⟨op, rfl, hlog⟩
    · exact .ok (hmode.trans hrun) hlog
    · have hlenient : s.strictUnknown = false := by simpa [errorOf] using hok
      rw [State.advancePc_fetchAddr] at hlog
      exact .diag ⟨op, s.pc⟩ (hmode.trans hrun) hlenient hx rfl hlog
  · exact .wait x hmode hx rfl

theorem stepEnds_of_step {s t : State} (hw : s.WillExecute) (hs : step s = .next t) : StepEnds s t := by
  rcases step_willExecute_cases hw hs with ⟨-, rfl⟩ | ⟨hpc, hexec⟩
  · exact .fault _ rfl rfl
  · rcases exec_cases hexec with ⟨e, -, rfl⟩ | ⟨hok, rfl⟩
    · exact .fault e rfl rfl
    · exact stepEnds_effect ⟨hw, hpc, rfl⟩ hok

/-- Settles O9: the report names the end of the step. -/
theorem stepEndsInTheReportedOutcome : Obligations.StepEndsInTheReportedOutcome := by
  intro s t hw hs
  cases stepEnds_of_step hw hs with
  | ok hmode hlog =>
    rw [stepReport_ok hmode hlog]
    exact ⟨hmode, hlog⟩
  | diag d hmode hlenient hx haddr hlog =>
    rw [stepReport_diag hmode hlog]
    exact ⟨hmode, hlenient, hx, haddr, hlog⟩
  | wait x hmode hx hlog =>
    rw [stepReport_waiting s hmode]
    exact ⟨hmode, by rw [State.waitingOut, hmode], hx, hlog⟩
  | fault e hmode hlog =>
    rw [stepReport_faulted s hmode]
    exact ⟨hmode, by rw [State.faultOut, hmode], hlog⟩

/-! ## PC after a step (R144) -/

theorem State.pressed_iff (s : State) (b : Byte) :
    s.pressed b = true ↔ b.toNat ≤ 15 ∧ s.keys.getLsbD b.toNat = true := by
  rw [State.pressed, Bool.and_eq_true, decide_eq_true_iff]

/-- A skip goes to the fetch address plus 4, or stays at the fetch address plus 2 (R139). -/
theorem State.skipIf_pc_toNat {s : State} {c : Bool} {yes no : Prop} (hyes : yes → c = true) (hno : no → c = false) :
    (yes → (s.skipIf c).pc.toNat = (s.fetchAddr.toNat + 4) % 65536) ∧
    (no → (s.skipIf c).pc.toNat = (s.fetchAddr.toNat + 2) % 65536) := by
  rw [← advanced_pc_toNat_eq_fetchAddr, ← pc_toNat_eq_fetchAddr]
  exact ⟨fun h => by rw [hyes h]; rfl, fun h => by rw [hno h]; rfl⟩

/-- An effect leaves PC as the table of R144 says. -/
theorem effect_pcAfter (i : Instr) (s : State) : PcAfter s.fetchAddr s i (effect i s).pc.toNat := by
  cases i with
  | zero =>
    rw [effect_zero]
    exact ⟨fun h => by simp [h, pc_toNat_eq_fetchAddr], fun h => by simp [h]⟩
  | ret =>
    intro rest top h
    simp [effect, h]
  | jp nnn | call nnn => exact zext16_toNat nnn
  | jpV0Nnn nnn => exact offsetTarget_toNat nnn _
  | seVxKk | seVxVy => exact State.skipIf_pc_toNat beq_iff_eq.mpr beq_eq_false_iff_ne.mpr
  | sneVxKk | sneVxVy => exact State.skipIf_pc_toNat bne_iff_ne.mpr bne_eq_false_iff_eq.mpr
  | skp x =>
    simp only [PcAfter, ← State.pressed_iff]
    exact State.skipIf_pc_toNat id (Bool.not_eq_true _).mp
  | sknp x =>
    simp only [PcAfter, ← State.pressed_iff]
    exact State.skipIf_pc_toNat (by simp) (by simp)
  | _ => exact pc_toNat_eq_fetchAddr s

/-- The table reads nothing that consuming the event or advancing PC changes. -/
theorem pcAfter_advanced (fa : Word) (s : State) (i : Instr) (p : Nat) :
    PcAfter fa s.popEvent.advancePc i p ↔ PcAfter fa s i p := by
  cases i <;> rfl

/-- Settles O10: a fetch fault leaves PC, any other error leaves PC advanced, and an effect follows the table. -/
theorem pcAfterEveryInstruction : Obligations.PcAfterEveryInstruction := by
  intro s t hw hs
  rcases step_willExecute_cases hw hs with ⟨hpc, rfl⟩ | ⟨hpc, hexec⟩
  · exact ⟨fun _ => ⟨Option.some_ne_none _, rfl⟩, fun hin => by omega⟩
  · refine ⟨fun hout => by omega, fun _ => ?_⟩
    rcases exec_cases hexec with ⟨e, -, rfl⟩ | ⟨-, rfl⟩
    · exact ⟨fun _ => BitVec.toNat_add _ _, fun hsafe => absurd hsafe (Option.some_ne_none _)⟩
    · refine ⟨absurd (effect_faultOut _ hw.2.2), fun _ => ?_⟩
      have htable := effect_pcAfter (decodeWord (s.mem.fetchWord s.pc.toNat)) s.popEvent.advancePc
      rwa [State.advancePc_fetchAddr, State.popEvent_pc, pcAfter_advanced] at htable

/-! ## The sentinel, RET and CALL (R133 to R135) -/

theorem exec_zero (s : State) : exec .zero s = .next (effect .zero s) := exec_eq .zero s

/-- Settles O11: the sentinel has no error, and its effect is on PC under Hold only. -/
theorem zeroWordIsANoOp : Obligations.ZeroWordIsANoOp := by
  intro s
  rw [exec_zero, effect_zero]
  refine ⟨fun hadvance => ?_, fun hhold fa hfa => ?_⟩
  · rw [if_neg (by rw [hadvance]; decide)]
  · rw [if_pos hhold, State.fetchAddr_eq hfa]

theorem exec_ret (s : State) : exec .ret s = popIntoPc s := rfl

theorem exec_call (nnn : BitVec 12) (s : State) : exec (.call nnn) s = pushAndJump (zext16 nnn) s := rfl

/-- Settles O12: RET is a pop into PC. -/
theorem retPopsTheStackIntoPc : Obligations.RetPopsTheStackIntoPc := by
  intro s
  rw [exec_ret]
  refine ⟨fun rest top htop => popIntoPc_top htop, fun hempty fa hfa => ?_⟩
  rw [popIntoPc_empty hempty, State.fetchAddr_eq hfa]
  rfl

/-- Settles O13: CALL is a push of PC and a jump. -/
theorem callPushesPcAndJumps : Obligations.CallPushesPcAndJumps := by
  intro nnn s
  rw [exec_call]
  refine ⟨fun hroom => ⟨_, pushAndJump_room hroom _, rfl, zext16_toNat nnn, rfl⟩, fun hfull fa hfa => ?_⟩
  rw [pushAndJump_full hfull.ge, State.fetchAddr_eq hfa]
  rfl

/-- Settles O14: the top of the stack a CALL left is its PC, over the stack before it. -/
theorem retAfterCallReturns : Obligations.RetAfterCallReturns := by
  rintro nnn s u hroom ⟨t, hcall, hstack⟩
  rw [exec_call, pushAndJump_room hroom] at hcall
  cases hcall
  exact popIntoPc_top hstack

/-! ## Jumps, unknown words and register skips (R136 to R143) -/

/-- Settles O15: the targets are below 2^16, so neither is cut off. -/
theorem jumpsSetPc : Obligations.JumpsSetPc :=
  fun nnn _ => ⟨⟨_, rfl, zext16_toNat nnn, rfl⟩, ⟨_, rfl, offsetTarget_toNat nnn _, rfl⟩⟩

theorem exec_unknown (op : Word) (s : State) : exec (.unknown op) s = execUnknown op s := rfl

/-- Settles O16: STRICT_UNKNOWN decides between the diagnostic and the error, both with the fetch address. -/
theorem unknownWordIsDiagnosedOrFatal : Obligations.UnknownWordIsDiagnosedOrFatal := by
  intro op fa s hfa
  rw [exec_unknown, execUnknown, State.fetchAddr_eq hfa]
  exact ⟨fun hlenient => if_neg (Bool.eq_false_iff.mp hlenient), fun hstrict => if_pos hstrict⟩

/-- An instruction that is a skip on `c` skips exactly when the proposition `c` decides holds (R139). -/
theorem skipsExactlyWhen_of_exec {i : Instr} {s : State} {c : Bool} {p : Prop} (h : exec i s = .next (s.skipIf c))
    (hc : c = true ↔ p) : SkipsExactlyWhen i s p := by
  refine ⟨_, h, fun hp => ?_, fun hp => ?_, s.skipIf_only c⟩
  · rw [hc.mpr hp]; exact BitVec.toNat_add _ _
  · rw [Bool.not_eq_true _ |>.mp (mt hc.mp hp)]; rfl

/-- Settles O17: each register skip is a skip on its comparison. -/
theorem registerSkips : Obligations.RegisterSkips :=
  fun _ _ _ _ => ⟨skipsExactlyWhen_of_exec rfl beq_iff_eq, skipsExactlyWhen_of_exec rfl bne_iff_ne,
    skipsExactlyWhen_of_exec rfl beq_iff_eq, skipsExactlyWhen_of_exec rfl bne_iff_ne⟩

end Sys2Proof.Machine
end

section
/-! SUPPORT. Registers, arithmetic and logic (41_register_alu.md): the two forms an answer takes (one register written; a
result and, last, the flag), the values and flags as numbers, and what each instruction puts in Vx and VF. -/

namespace Sys2Proof.Machine

/-! ## The two forms of an answer (10_state.md R32) -/

theorem State.regsSameBut_setV (s : State) (x : Reg) (b : Byte) : RegsSameBut [x] s (s.setV x b) :=
  fun _ hr => s.getV_setV_ne (List.ne_of_not_mem_cons hr) b

theorem State.regsSameBut_setResult (s : State) (x : Reg) (r : Byte) (f : Bool) :
    RegsSameBut [x, regVF] s (s.setResult x r f) := by
  intro y hy
  obtain ⟨hx, hf⟩ := List.ne_and_not_mem_of_not_mem_cons hy
  exact s.getV_setResult_ne hx (List.ne_of_not_mem_cons hf) r f

/-- An instruction that answers the state with `b` in Vx puts the number `b` stands for in Vx. -/
theorem putsInVx_of_exec {i : Instr} {s : State} {x : Reg} {b : Byte} {value : Nat}
    (h : exec i s = .next (s.setV x b)) (hb : b.toNat = value) : PutsInVx i s x value :=
  ⟨_, h, by rw [State.getV_setV_same, hb], s.regsSameBut_setV x b, s.setV_only x b⟩

/-- An instruction that writes `r` to Vx and then the flag `f` puts the flag in VF for every `x`, and `r` in a Vx other
than VF. -/
theorem putsInVxAndFlag_of_exec {i : Instr} {s : State} {x : Reg} {r : Byte} {f : Bool} {value flag : Nat}
    (h : exec i s = .next (s.setResult x r f)) (hr : r.toNat = value) (hf : (flagByte f).toNat = flag) :
    PutsInVxAndFlag i s x value flag :=
  ⟨_, h, by rw [State.getV_setResult_vf, hf], fun hx => by rw [s.getV_setResult_dest hx, hr],
    s.regsSameBut_setResult x r f, s.setResult_only x r f⟩

/-! ## The flags as numbers (R176 to R180) -/

theorem flagByte_carryFlag_toNat (a b : Byte) :
    (flagByte (carryFlag a b)).toNat = if a.toNat + b.toNat > 255 then 1 else 0 := by
  simp only [flagByte_toNat, carryFlag, decide_eq_true_eq, gt_iff_lt]

theorem flagByte_greaterFlag_toNat (a b : Byte) :
    (flagByte (greaterFlag a b)).toNat = if a.toNat > b.toNat then 1 else 0 := by
  simp only [flagByte_toNat, greaterFlag, decide_eq_true_eq, gt_iff_lt]

theorem flagByte_getLsbD_toNat (b : Byte) (k : Nat) : (flagByte (b.getLsbD k)).toNat = b.toNat / 2 ^ k % 2 := by
  rw [flagByte_toNat, ← Bool.cond_eq_ite]
  exact Nat.toNat_testBit b.toNat k

theorem flagByte_lowBitFlag_toNat (b : Byte) : (flagByte (lowBitFlag b)).toNat = b.toNat % 2 := by
  rw [lowBitFlag, flagByte_getLsbD_toNat, pow_zero, Nat.div_one]

/-- Bit 7 is the highest bit of a byte, so nothing stands above it. -/
theorem flagByte_highBitFlag_toNat (b : Byte) : (flagByte (highBitFlag b)).toNat = b.toNat / 128 := by
  have hb := b.isLt
  rw [highBitFlag, flagByte_getLsbD_toNat]
  omega

/-! ## The values as numbers (R177 to R180) -/

theorem byte_sub_toNat (a b : Byte) : (a - b).toNat = (256 + a.toNat - b.toNat) % 256 := by
  have hb := b.isLt
  rw [BitVec.toNat_sub]
  omega

theorem byte_shiftRight_one_toNat (b : Byte) : (b >>> 1).toNat = b.toNat / 2 := by
  rw [BitVec.toNat_ushiftRight, Nat.shiftRight_eq_div_pow, pow_one]

theorem byte_shiftLeft_one_toNat (b : Byte) : (b <<< 1).toNat = b.toNat * 2 % 256 := by
  rw [BitVec.toNat_shiftLeft, Nat.shiftLeft_eq, pow_one]

/-! ## The instructions (R170 to R181) -/

/-- Settles O18: each load writes its source to Vx. -/
theorem registerLoads : Obligations.RegisterLoads :=
  fun _ _ _ _ => ⟨putsInVx_of_exec rfl rfl, putsInVx_of_exec rfl rfl⟩

/-- Settles O19: byte addition is the sum modulo 256, and only Vx is written. -/
theorem addImmediateWrapsWithoutFlag : Obligations.AddImmediateWrapsWithoutFlag :=
  fun _ _ _ => putsInVx_of_exec rfl (BitVec.toNat_add _ _)

/-- Settles O20: the bitwise operations on bytes are those on numbers, and only Vx is written. -/
theorem logicWithoutFlag : Obligations.LogicWithoutFlag :=
  fun _ _ _ => ⟨putsInVx_of_exec rfl (BitVec.toNat_or _ _), putsInVx_of_exec rfl (BitVec.toNat_and _ _),
    putsInVx_of_exec rfl (BitVec.toNat_xor _ _)⟩

/-- Settles O21: the sum and then its carry. -/
theorem addSetsCarry : Obligations.AddSetsCarry :=
  fun _ _ _ => putsInVxAndFlag_of_exec rfl (BitVec.toNat_add _ _) (flagByte_carryFlag_toNat _ _)

/-- Settles O22: each difference and then the comparison of its operands in the same order. -/
theorem subtractionsSetStrictGreater : Obligations.SubtractionsSetStrictGreater :=
  fun _ _ _ => ⟨putsInVxAndFlag_of_exec rfl (byte_sub_toNat _ _) (flagByte_greaterFlag_toNat _ _),
    putsInVxAndFlag_of_exec rfl (byte_sub_toNat _ _) (flagByte_greaterFlag_toNat _ _)⟩

/-- Settles O23: each shift and then the bit of the old Vx that it shifted out. -/
theorem shiftsCaptureTheBitShiftedOut : Obligations.ShiftsCaptureTheBitShiftedOut :=
  fun _ _ _ => ⟨putsInVxAndFlag_of_exec rfl (byte_shiftRight_one_toNat _) (flagByte_lowBitFlag_toNat _),
    putsInVxAndFlag_of_exec rfl (byte_shiftLeft_one_toNat _) (flagByte_highBitFlag_toNat _)⟩

/-- Settles O24: the draw touches no register, and a byte masked with `kk` has no bit outside `kk`. -/
theorem rndMasksTheDrawnByte : Obligations.RndMasksTheDrawnByte := by
  intro x kk s
  have hread : (s.drawn.setV x (s.rngInput &&& kk)).getV x = s.rngInput &&& kk := s.drawn.getV_setV_same x _
  refine ⟨s.drawn.setV x (s.rngInput &&& kk), rfl, hread, ?_, s.drawn.regsSameBut_setV x _, rfl⟩
  rw [hread, BitVec.and_assoc, BitVec.and_not_self]
  exact BitVec.and_zero

end Sys2Proof.Machine
end

section
/-! SUPPORT. The index register and the memory transfers (42_index_memory.md): what a range that leaves the address space
raises, the block load in range, and what each instruction that writes I or moves bytes at I does. -/

namespace Sys2Proof.Machine

/-! ## A range that leaves the address space (00_scope.md R13) -/

theorem FirstAddressAbove.eq_max {base bad : Nat} (h : FirstAddressAbove base bad) : bad = max base 0x1000 := by
  obtain ⟨hbase, habove, hleast⟩ := h
  have hmax : bad ≤ max base 0x1000 := hleast _ (le_max_left ..) (by omega)
  exact hmax.antisymm (max_le hbase habove)

/-- An instruction that checks the `n` addresses from I up faults when the last of them lies above 0xFFF. -/
theorem faultsOutOfRange_of_exec {i : Instr} {s ok : State} {n : Nat} (h : exec i s = withRange s.i.toNat n s ok)
    (hn : 0 < n) (hout : 0x1000 < s.i.toNat + n) : FaultsOutOfRange i s := by
  intro fa bad hfa hbad
  rw [h, withRange_outside hn hout, State.fetchAddr_eq hfa, hbad.eq_max]
  rfl

/-! ## The writes of I (R210 to R212) -/

/-- I is never masked to 12 bits, and a byte fits in its 16 (R211). -/
theorem index_add_toNat (i : Word) (b : Byte) : (i + b.setWidth 16).toNat = (i.toNat + b.toNat) % 65536 := by
  rw [BitVec.toNat_add, BitVec.toNat_setWidth_of_le (by decide)]

/-- No byte takes the glyph pointer past 0x6AB (R212). -/
theorem glyph_bound (b : Byte) : Config.fontBase.val + b.toNat * 5 ≤ 0x6AB := by
  have hb := b.isLt
  have hroom := fontBase_room
  omega

/-- Settles O28: each instruction writes I only, with the address its operand names. -/
theorem indexRegisterWrites : Obligations.IndexRegisterWrites :=
  fun _ nnn s => ⟨⟨_, rfl, zext16_toNat nnn, rfl⟩, ⟨_, rfl, index_add_toNat s.i _, rfl⟩, ⟨_, rfl, glyphAddr_toNat _, rfl⟩,
    glyph_bound _⟩

/-! ## The stores (R213, R214) -/

/-- Settles O29: the digits are three bytes, and the range is checked before the first is stored. -/
theorem bcdStoresThreeDigits : Obligations.BcdStoresThreeDigits := by
  intro x s
  refine ⟨fun hin => ?_, fun hout => faultsOutOfRange_of_exec rfl (Nat.succ_pos 2) (Nat.succ_lt_succ hout)⟩
  obtain ⟨hundreds, tens, ones⟩ := Memory.read_writeBytes_decimalDigits s.mem s.i.toNat (s.getV x)
  exact ⟨_, exec_ldBVx_inside hin, hundreds, tens, ones, fun a ha => Memory.read_writeBytes_outside _ _ _ a ha, rfl⟩

/-- Settles O30: the block is `x + 1` bytes, and the range is checked before the first is stored. -/
theorem registerBlockStore : Obligations.RegisterBlockStore := by
  intro x s
  refine ⟨fun hin => ?_, fun hout => faultsOutOfRange_of_exec rfl x.val.succ_pos (Nat.succ_lt_succ hout)⟩
  refine ⟨_, exec_ldMemVx_inside hin, fun k hk => Memory.read_writeBytes_regsUpTo s.mem _ s hk, fun a ha => ?_, rfl⟩
  exact Memory.read_writeBytes_outside _ _ _ a (by rwa [State.regsUpTo_length])

/-! ## The load (R215) -/

/-- Fx65 in range. -/
theorem exec_ldVxMem_inside {x : Reg} {s : State} (h : s.i.toNat + x.val ≤ 0xFFF) :
    exec (.ldVxMem x) s = .next (s.setRegs (s.mem.readBytes s.i.toNat (x.val + 1))) :=
  withRange_inside (.inr (by rw [State.dataAddr]; omega)) _ _

/-- A block load writes to each register up to `x` the byte at its place in the block. -/
theorem State.getV_setRegs_readBytes_upTo (s : State) {x k : Reg} (h : k ≤ x) (m : Memory) (a : Nat) :
    (s.setRegs (m.readBytes a (x.val + 1))).getV k = m.read (a + k.val) := by
  have hk : k.val < (m.readBytes a (x.val + 1)).length := by rw [Memory.readBytes_length]; exact Nat.lt_succ_of_le h
  rw [State.getV_setRegs, List.getD_eq_getElem _ _ hk, Memory.readBytes_getElem]

/-- Settles O31: the bytes of the block are read in the state before, and the range is checked before the first is
loaded. -/
theorem registerBlockLoad : Obligations.RegisterBlockLoad := by
  intro x s
  refine ⟨fun hin => ?_, fun hout => faultsOutOfRange_of_exec rfl x.val.succ_pos (Nat.succ_lt_succ hout)⟩
  exact ⟨_, exec_ldVxMem_inside hin, fun k hk => s.getV_setRegs_readBytes_upTo hk s.mem _,
    fun k hk => s.getV_setRegs_readBytes_above hk s.mem _, rfl⟩

/-- Settles O32: the load reads each register from the byte the store (O30) left for it. -/
theorem storedBlockLoadsBack : Obligations.StoredBlockLoadsBack := by
  intro x s hin
  obtain ⟨t, hstore, hstored, -, -⟩ := (registerBlockStore x s).1 hin
  refine ⟨t, hstore, fun u hmem hi => ?_⟩
  obtain ⟨w, hload, hloaded, -, -⟩ := (registerBlockLoad x u).1 (by rwa [hi])
  exact ⟨w, hload, fun k hk => by rw [hloaded k hk, hmem, hi, hstored k hk]⟩

end Sys2Proof.Machine
end

section
/-! SUPPORT. The display (43_display.md): the pixels a sprite in memory lands on, what a draw in range answers, and what
CLS, one draw and two draws at one place do. -/

namespace Sys2Proof.Machine

/-! ## The sprite (R242, R243) -/

theorem State.spriteAt_length (s : State) (n : Fin 16) : (s.spriteAt n).length = n.val :=
  Memory.readBytes_length ..

/-- The bits of the bytes a draw reads land where the sprite at I covers. -/
theorem spriteLands_spriteAt_iff (s : State) (vx vy : Byte) (n : Fin 16) (px : Fin 64) (py : Fin 32) :
    SpriteLands vx.toNat vy.toNat 0 (s.spriteAt n) px py ↔ SpriteCovers s vx vy n.val px py := by
  simp only [SpriteLands, SpriteCovers, State.spriteAt, State.dataAddr, Memory.readBytes_length,
    Memory.readBytes_getElem, Nat.zero_add, exists_prop]

/-- The pixels a sprite covers depend on I and the memory only. -/
theorem spriteCovers_congr {s t : State} (hi : t.i = s.i) (hmem : t.mem = s.mem) (vx vy : Byte) (n : Nat) (px : Fin 64)
    (py : Fin 32) : SpriteCovers t vx vy n px py ↔ SpriteCovers s vx vy n px py := by
  simp only [SpriteCovers, hi, hmem]

/-! ## The instructions (R240 to R243) -/

/-- Settles O37: the cleared framebuffer has no pixel set. -/
theorem clsClearsEveryPixel : Obligations.ClsClearsEveryPixel :=
  fun _ => ⟨_, rfl, Framebuffer.pixel_cleared, rfl⟩

/-- Dxyn in range. -/
theorem exec_drw_inside {n : Fin 16} {s : State} (h : n = 0 ∨ s.i.toNat + n.val - 1 ≤ 0xFFF) (x y : Reg) :
    exec (.drw x y n) s = .next (effect (.drw x y n) s) :=
  withRange_inside (h.imp (congrArg Fin.val) fun hin => by rw [State.dataAddr]; omega) _ _

/-- Settles O38: in range the draw flips what the sprite covers and VF is its collision flag; the range is checked
before the first byte is read. -/
theorem drawXorsTheSpriteAndReportsErasure : Obligations.DrawXorsTheSpriteAndReportsErasure := by
  intro x y n s
  refine ⟨fun hin => ?_, fun hn hout => faultsOutOfRange_of_exec rfl (Fin.pos_iff_ne_zero.mpr hn) (by omega)⟩
  have hlen : (s.spriteAt n).length ≤ 15 := by rw [s.spriteAt_length]; omega
  obtain ⟨hflip, hkeep, hcol⟩ := s.fb.draw_cases (s.getV x) (s.getV y) hlen
  simp only [spriteLands_spriteAt_iff] at hflip hkeep hcol
  have hvf : (effect (.drw x y n) s).getV regVF = flagByte (s.fb.draw (s.getV x) (s.getV y) (s.spriteAt n)).2 :=
    State.getV_setFlag_vf _ _
  refine ⟨_, exec_drw_inside hin x y, hflip, hkeep, fun herased => ?_, fun hclear => ?_, ?_, rfl⟩
  · rw [hvf, hcol.mpr herased]
    rfl
  · have hnone : ¬ ∃ px py, SpriteCovers s (s.getV x) (s.getV y) n.val px py ∧ s.fb.pixel px py = true :=
      fun ⟨px, py, hcov, hset⟩ => by simp [hclear px py hcov] at hset
    rw [hvf, Bool.eq_false_iff.mpr (mt hcol.mp hnone)]
    rfl
  · exact State.regsSameBut_setV _ _ _

/-! ## Two draws at one place (R244) -/

/-- Two updates of registers and framebuffer, the second of which restores the framebuffer, are one of registers. -/
theorem State.only_v_of_fb_restored {s t u : State} (ht : t = { s with v := t.v, fb := t.fb })
    (hu : u = { t with v := u.v, fb := u.fb }) (hfb : u.fb = s.fb) : u = { s with v := u.v } := by
  rw [hfb, ht] at hu
  exact hu

theorem RegsSameBut.trans {l : List Reg} {s t u : State} (hst : RegsSameBut l s t) (htu : RegsSameBut l t u) :
    RegsSameBut l s u :=
  fun r hr => (htu r hr).trans (hst r hr)

/-- Settles O39: the second draw meets the same coordinates, I and memory, so it flips the same pixels back; one of them
is set before it exactly when it was clear before the first. -/
theorem drawingTwiceRestoresTheFramebuffer : Obligations.DrawingTwiceRestoresTheFramebuffer := by
  intro x y n s hx hy hin
  obtain ⟨t, hexec, hflip, hkeep, -, -, hregs, honly⟩ := (drawXorsTheSpriteAndReportsErasure x y n s).1 hin
  have hi : t.i = s.i := by rw [honly]
  have hmem : t.mem = s.mem := by rw [honly]
  have hvx : t.getV x = s.getV x := hregs x (by simpa using hx)
  have hvy : t.getV y = s.getV y := hregs y (by simpa using hy)
  obtain ⟨u, hexec', hflip', hkeep', hset', hclear', hregs', honly'⟩ :=
    (drawXorsTheSpriteAndReportsErasure x y n t).1 (by rwa [hi])
  simp only [hvx, hvy, spriteCovers_congr hi hmem] at hflip' hkeep' hset' hclear'
  have hfb : u.fb = s.fb := by
    refine Framebuffer.ext_pixel fun px py => ?_
    by_cases hcov : SpriteCovers s (s.getV x) (s.getV y) n.val px py
    · rw [hflip' px py hcov, hflip px py hcov, Bool.not_not]
    · rw [hkeep' px py hcov, hkeep px py hcov]
  refine ⟨t, u, hexec, hexec', hfb, ⟨fun hone => ?_, ?_⟩, hregs.trans hregs',
    State.only_v_of_fb_restored honly honly' hfb⟩
  · by_contra hnone
    have hall : ∀ px py, SpriteCovers s (s.getV x) (s.getV y) n.val px py → s.fb.pixel px py = true := by
      simpa using hnone
    rw [hclear' fun px py hcov => by rw [hflip px py hcov, hall px py hcov]; rfl] at hone
    exact absurd hone (by decide)
  · rintro ⟨px, py, hcov, hpix⟩
    exact hset' ⟨px, py, hcov, by rw [hflip px py hcov, hpix]; rfl⟩

end Sys2Proof.Machine
end

section
/-! SUPPORT. Keys, timers and the wait (44_timers_input.md): the key skips and timer transfers, what a listed key event or
tick does, and, by one induction over the machine's runs, that a wait lasts until a key press or a reset. -/

namespace Sys2Proof.Machine

/-! ## The instructions (R270 to R275, R278) -/

/-- Settles O40: both skip on whether the byte in Vx is a pressed key. -/
theorem keySkips : Obligations.KeySkips := by
  intro x s
  have hpressed := s.pressed_iff (s.getV x)
  have hreleased : (!s.pressed (s.getV x)) = true ↔ ¬ s.pressed (s.getV x) = true := by
    rw [Bool.not_eq_true', Bool.not_eq_true]
  exact ⟨skipsExactlyWhen_of_exec rfl hpressed, skipsExactlyWhen_of_exec rfl (hreleased.trans (not_congr hpressed))⟩

/-- Settles O41: each transfer is one write, and the sound output decides whether ST is above 0. -/
theorem timerTransfers : Obligations.TimerTransfers :=
  fun _ _ => ⟨putsInVx_of_exec rfl rfl, rfl, rfl, decide_eq_true_iff⟩

/-- Settles O42: Fx0A writes the mode only. -/
theorem waitForKeySuspendsStepping : Obligations.WaitForKeySuspendsStepping :=
  fun _ _ => rfl

/-! ## A listed event -/

theorem step_of_schedule_cons {s : State} {e : Event} {rest : List Event} (h : s.schedule = e :: rest) :
    step s = applyEvent e { s with schedule := rest } := by
  rw [step_eq, nextEvent_cons h, State.popEvent, h, List.tail_cons]

/-! ## The Input Surface (R276, R277) -/

theorem keyMask_getLsbD (id k : KeyId) : (keyMask id).getLsbD k.val = decide (k = id) := by
  rw [keyMask, BitVec.getLsbD_twoPow, decide_eq_true id.isLt, Bool.true_and, decide_eq_decide, Fin.ext_iff, eq_comm]

theorem keyDown_keys_getLsbD (id k : KeyId) (s : State) :
    (keyDown id s).keys.getLsbD k.val = (s.keys.getLsbD k.val || decide (k = id)) := by
  obtain ⟨v, m, hk⟩ := keyDown_only id s
  rw [hk, BitVec.getLsbD_or, keyMask_getLsbD]

theorem keyUp_keys_getLsbD (id k : KeyId) (s : State) :
    (keyUp id s).keys.getLsbD k.val = (s.keys.getLsbD k.val && decide (k ≠ id)) := by
  rw [keyUp, BitVec.getLsbD_and, BitVec.getLsbD_not, keyMask_getLsbD, decide_eq_true k.isLt, Bool.true_and, decide_not]

/-- Settles O44: a release takes one bit from the Input Surface. -/
theorem keyUpOnlyChangesTheInputSurface : Obligations.KeyUpOnlyChangesTheInputSurface :=
  fun _ id _ hsched => ⟨_, step_of_schedule_cons hsched, fun k => keyUp_keys_getLsbD id k _, rfl⟩

/-! ## A key press and the wait (R276) -/

/-- A new press in an enabled wait. -/
theorem keyDown_endsWait {id : KeyId} {s : State} {x : Reg} (hm : s.mode = .waiting x) (hen : s.enabled = true)
    (hnew : s.keys.getLsbD id.val = false) :
    keyDown id s = { s.setV x (keyByte id) with mode := .running, keys := s.keys ||| keyMask id } := by
  rcases endWait_cases id (s.keys.getLsbD id.val) { s with keys := s.keys ||| keyMask id } with
    ⟨y, hy, -, -, he⟩ | ⟨hheld, -⟩
  · obtain rfl : x = y := Mode.waiting.inj (hm.symm.trans hy)
    exact he
  · exact absurd (hheld x hm hen) (Bool.eq_false_iff.mp hnew)

/-- A press that is not new, or finds no enabled wait. -/
theorem keyDown_endsNoWait {id : KeyId} {s : State}
    (h : (∀ x, s.mode ≠ .waiting x) ∨ s.enabled = false ∨ s.keys.getLsbD id.val = true) :
    keyDown id s = { s with keys := s.keys ||| keyMask id } := by
  rcases endWait_cases id (s.keys.getLsbD id.val) { s with keys := s.keys ||| keyMask id } with
    ⟨x, hm, hen, hnew, -⟩ | ⟨-, he⟩
  · rcases h with hno | hdis | hheld
    · exact absurd hm (hno x)
    · exact absurd hen (Bool.eq_false_iff.mp hdis)
    · exact absurd hheld (Bool.eq_false_iff.mp hnew)
  · exact he

theorem keyByte_toNat (id : KeyId) : (keyByte id).toNat = id.val := by
  rw [keyByte, BitVec.toNat_ofNat, Nat.mod_eq_of_lt (by omega)]

/-- Settles O43: the press joins the Input Surface; a new one in an enabled wait also writes Vx and the mode. -/
theorem keyDownEndsAWait : Obligations.KeyDownEndsAWait := by
  intro s id rest hsched
  refine ⟨_, step_of_schedule_cons hsched, fun k => keyDown_keys_getLsbD id k _, fun x hm hen hnew => ?_, fun h => ?_⟩
  · rw [keyDown_endsWait (s := { s with schedule := rest }) hm hen hnew]
    refine ⟨?_, State.regsSameBut_setV _ x _, rfl⟩
    exact (congrArg BitVec.toNat (State.getV_setV_same _ x _)).trans (keyByte_toNat id)
  · rw [keyDown_endsNoWait (s := { s with schedule := rest }) h]

/-! ## The ticks (R280, R281) -/

/-- What a tick leaves in its timer. -/
def countDownIf (enabled : Bool) (b : Byte) : Byte := if enabled then countDown b else b

theorem tickDt_eq (s : State) : tickDt s = { s with dt := countDownIf s.enabled s.dt } := by
  rw [tickDt, countDownIf]
  split <;> rfl

theorem tickSt_eq (s : State) : tickSt s = { s with st := countDownIf s.enabled s.st } := by
  rw [tickSt, countDownIf]
  split <;> rfl

theorem countDownIf_true (b : Byte) :
    (b.toNat > 0 → (countDownIf true b).toNat = b.toNat - 1) ∧ (b = 0 → countDownIf true b = 0) :=
  ⟨fun _ => countDown_toNat b, fun hzero => by rw [hzero]; rfl⟩

/-- Settles O45: a tick counts its own timer down while enabled, and leaves it while not; neither looks at the mode. -/
theorem ticksCountTheirTimerDown : Obligations.TicksCountTheirTimerDown := by
  intro s rest
  refine ⟨fun hsched => ?_, fun hsched => ?_⟩
  · rw [step_of_schedule_cons hsched, applyEvent, tickDt_eq]
    exact ⟨_, rfl, fun hen => hen ▸ countDownIf_true s.dt, fun hdis => hdis ▸ rfl, rfl⟩
  · rw [step_of_schedule_cons hsched, applyEvent, tickSt_eq]
    exact ⟨_, rfl, fun hen => hen ▸ countDownIf_true s.st, fun hdis => hdis ▸ rfl, rfl⟩

/-! ## Runs of the machine -/

theorem step_total (s : State) : ∃ t, step s = .next t := applyEvent_total _ _

/-- A step takes the event it applies from the schedule, and no other. -/
theorem step_schedule {s t : State} (h : step s = .next t) : t.schedule = s.schedule.tail := by
  have hpop : step s = .next { t with schedule := s.schedule.tail } :=
    applyEvent_withSchedule (e := s.nextEvent) (s := s.popEvent) s.schedule.tail h
  rw [h] at hpop
  injection hpop with hpop
  exact congrArg State.schedule hpop

/-- The event of a step is one of the next `k + 1` of the schedule, or the step event that comes when none is listed. -/
theorem nextEvent_mem_take_or_step (s : State) (k : Nat) :
    s.nextEvent ∈ s.schedule.take (k + 1) ∨ s.nextEvent = .step := by
  cases hsched : s.schedule with
  | nil => exact .inr (nextEvent_nil hsched)
  | cons e rest => exact .inl (by rw [nextEvent_cons hsched]; exact List.mem_cons_self)

/-- What the events of a kind keep, a run of the machine keeps while its events are of that kind; step events have to be,
since a step comes when no event is listed (log 2). -/
theorem core_run_keeps {I : State → Prop} {Q : Event → Prop} (hQ : Q .step)
    (hI : ∀ s t, I s → Q s.nextEvent → step s = .next t → I t) {k : Nat} {s : State} (hs : I s)
    (hev : ∀ e ∈ s.schedule.take k, Q e) :
    ∃ t : State, Sys2Proof.core.run k s = .next t ∧ I t ∧ t.schedule = s.schedule.drop k := by
  induction k generalizing s with
  | zero => exact ⟨s, rfl, hs, rfl⟩
  | succ k ih =>
    obtain ⟨u, hu⟩ := step_total s
    have hnext : Q s.nextEvent := (nextEvent_mem_take_or_step s k).elim (hev _) fun h => h ▸ hQ
    have hrest : u.schedule = s.schedule.drop 1 := by rw [step_schedule hu, List.drop_one]
    obtain ⟨t, hrun, ht, hdrop⟩ := ih (hI s u hs hnext hu) fun e he => hev e <| by
      rw [hrest, List.take_drop, Nat.add_comm 1 k] at he
      exact List.mem_of_mem_drop he
    exact ⟨t, (core_run_succ k hu).trans hrun, ht, by rw [hdrop, hrest, List.drop_drop, Nat.add_comm]⟩

/-! ## While no instruction executes (R275) -/

/-- Nothing has changed but the timers, `enabled`, the Input Surface and the schedule. -/
def OnlyHostFieldsDiffer (s t : State) : Prop :=
  t = { s with dt := t.dt, st := t.st, enabled := t.enabled, keys := t.keys, schedule := t.schedule }

theorem OnlyHostFieldsDiffer.refl (s : State) : OnlyHostFieldsDiffer s s := rfl

theorem OnlyHostFieldsDiffer.trans {s t u : State} (hst : OnlyHostFieldsDiffer s t) (htu : OnlyHostFieldsDiffer t u) :
    OnlyHostFieldsDiffer s u := by
  unfold OnlyHostFieldsDiffer at hst htu
  rw [hst] at htu
  exact htu

theorem OnlyHostFieldsDiffer.mode_eq {s t : State} (h : OnlyHostFieldsDiffer s t) : t.mode = s.mode := by
  rw [h]

/-- Outside Running, a step that is no reset, and no key press while the block waits, changes host fields only. -/
theorem step_onlyHostFieldsDiffer {s t : State} (hs : step s = .next t) (hmode : s.mode ≠ .running)
    (hreset : ¬ s.nextEvent.IsReset) (hkey : ∀ id, s.nextEvent = .keyDown id → ∀ x, s.mode ≠ .waiting x) :
    OnlyHostFieldsDiffer s t := by
  have hidle : ¬ s.WillExecute := fun ⟨_, _, hrun⟩ => hmode hrun
  rcases step_cases hs fun rom h => hreset ⟨rom, h⟩ with
    ⟨hw, -⟩ | ⟨hw, -⟩ | ⟨-, -, rfl⟩ | ⟨-, rfl⟩ | ⟨-, rfl⟩ | ⟨id, he, rfl⟩ | ⟨id, -, rfl⟩ | ⟨-, rfl⟩ | ⟨-, rfl⟩
  · exact absurd hw hidle
  · exact absurd hw hidle
  · rfl
  · rw [tickDt_eq]; rfl
  · rw [tickSt_eq]; rfl
  · rw [keyDown_endsNoWait (s := s.popEvent) (.inl (hkey id he))]; rfl
  · rfl
  · rfl
  · rfl

/-- Settles O46: by `core_run_keeps`, since only a key press or a reset ends the mode Waiting. -/
theorem waitingLastsUntilAKeyPress : Obligations.WaitingLastsUntilAKeyPress := by
  intro k s x hm hev
  have hkeep : ∀ u t, OnlyHostFieldsDiffer s u → ((∀ id, u.nextEvent ≠ .keyDown id) ∧ ¬ u.nextEvent.IsReset) →
      step u = .next t → OnlyHostFieldsDiffer s t := by
    rintro u t hu ⟨hkey, hreset⟩ hs
    have hrun : u.mode ≠ .running := by simp [hu.mode_eq, hm]
    exact hu.trans (step_onlyHostFieldsDiffer hs hrun hreset fun id he => absurd he (hkey id))
  have hstep : (∀ id, Event.step ≠ .keyDown id) ∧ ¬ Event.step.IsReset := by simp [Event.IsReset]
  obtain ⟨t, hrun, ht, -⟩ := core_run_keeps hstep hkeep (.refl s) hev
  exact ⟨t, hrun, ht⟩

end Sys2Proof.Machine
end

section
/-! SUPPORT. Errors, the host and runs (60_exceptions.md): the steps that raise a fatal error and what they leave, what
lasts until a reset or a start, what the host's events write, and runs: that every sequence of events is one, and that a
fair one counts a timer down to 0. -/

namespace Sys2Proof.Machine

/-! ## Fatal errors (R300 to R308) -/

/-- A step that faults: on the fetch, with PC left, or in the instruction, with PC advanced. -/
theorem step_fault_cases {s t : State} (hw : s.WillExecute) (hs : step s = .next t) (hf : t.faultOut ≠ none) :
    (0xFFF ≤ s.pc.toNat ∧ t = s.popEvent.faultWith (.addressOutOfRange (max s.pc.toNat 0x1000) s.pc)) ∨
    ∃ i e, Executes s i ∧ errorOf i s.popEvent.advancePc = some e ∧ t = s.popEvent.advancePc.faultWith e := by
  rcases step_willExecute_cases hw hs with hfetch | ⟨hpc, hexec⟩
  · exact .inl hfetch
  · rcases exec_cases hexec with ⟨e, he, ht⟩ | ⟨-, rfl⟩
    · exact .inr ⟨_, e, ⟨hw, hpc, rfl⟩, he, ht⟩
    · exact absurd (effect_faultOut (s := s.popEvent.advancePc) _ hw.2.2) hf

theorem firstAddressAbove_max (base : Nat) : FirstAddressAbove base (max base 0x1000) :=
  ⟨by omega, by omega, fun a _ _ => by omega⟩

/-- The instructions that access a range of addresses from I (R302). -/
def ExecutesRangeAccess (s : State) : Prop :=
  (∃ x y n, Executes s (.drw x y n)) ∨ (∃ x, Executes s (.ldBVx x)) ∨ (∃ x, Executes s (.ldMemVx x)) ∨
    ∃ x, Executes s (.ldVxMem x)

/-- The errors a step with an effect can raise, each with its info and its raiser. -/
inductive Raises (s : State) : FatalError → Prop
  | fetch (hpc : 0xFFE < s.pc.toNat) : Raises s (.addressOutOfRange (max s.pc.toNat 0x1000) s.pc)
  | range (hx : ExecutesRangeAccess s) : Raises s (.addressOutOfRange (max s.i.toNat 0x1000) s.pc)
  | stackOverflow (hfull : 16 ≤ s.stack.length) (hx : ∃ nnn, Executes s (.call nnn)) : Raises s (.stackOverflow s.pc)
  | stackUnderflow (hempty : s.stack = []) (hx : Executes s .ret) : Raises s (.stackUnderflow s.pc)
  | unknownOpcode {op : Word} (hstrict : s.strictUnknown = true) (hx : Executes s (.unknown op)) :
      Raises s (.unknownOpcode op s.pc)

theorem raises_of_rangeError {s : State} {n : Nat} {e : FatalError} (hx : ExecutesRangeAccess s)
    (h : rangeError s.i.toNat n s.popEvent.advancePc = some e) : Raises s e := by
  obtain ⟨-, -, rfl⟩ := rangeError_some h
  rw [State.advancePc_fetchAddr]
  exact .range hx

/-- The error of the instruction a step executes. -/
theorem raises_of_errorOf {s : State} {i : Instr} {e : FatalError} (hx : Executes s i)
    (h : errorOf i s.popEvent.advancePc = some e) : Raises s e := by
  cases i with
  | drw => exact raises_of_rangeError (.inl ⟨_, _, _, hx⟩) h
  | ldBVx => exact raises_of_rangeError (.inr (.inl ⟨_, hx⟩)) h
  | ldMemVx => exact raises_of_rangeError (.inr (.inr (.inl ⟨_, hx⟩))) h
  | ldVxMem => exact raises_of_rangeError (.inr (.inr (.inr ⟨_, hx⟩))) h
  | call =>
    obtain ⟨hfull, he⟩ := Option.ite_none_right_eq_some.mp h
    rw [State.advancePc_fetchAddr] at he
    cases he
    exact .stackOverflow hfull ⟨_, hx⟩
  | ret =>
    obtain ⟨hempty, he⟩ := Option.ite_none_right_eq_some.mp h
    rw [State.advancePc_fetchAddr] at he
    cases he
    exact .stackUnderflow hempty hx
  | unknown =>
    obtain ⟨hstrict, he⟩ := Option.ite_none_right_eq_some.mp h
    rw [State.advancePc_fetchAddr] at he
    cases he
    exact .unknownOpcode hstrict hx
  | _ => cases h

theorem raises_of_step {s t : State} {e : FatalError} (hw : s.WillExecute) (hs : step s = .next t)
    (hm : t.mode = .faulted e) : Raises s e := by
  rcases step_fault_cases hw hs (by simp [State.faultOut, hm]) with ⟨hpc, rfl⟩ | ⟨i, e', hx, he, rfl⟩ <;>
    cases hm
  · exact .fetch hpc
  · exact raises_of_errorOf hx he

/-- Settles O48: the cases of `Raises`. -/
theorem eachErrorHasItsRaisers : Obligations.EachErrorHasItsRaisers := by
  intro s t e hw hs hm
  cases raises_of_step hw hs hm with
  | fetch hpc => exact ⟨rfl, rfl, by omega, .inl ⟨hpc, firstAddressAbove_max _⟩⟩
  | range hx => exact ⟨rfl, rfl, by omega, .inr ⟨firstAddressAbove_max _, hx⟩⟩
  | stackOverflow hfull hx => exact ⟨rfl, rfl, hfull, hx⟩
  | stackUnderflow hempty hx => exact ⟨rfl, rfl, hempty, hx⟩
  | unknownOpcode hstrict hx => exact ⟨rfl, rfl, hstrict, hx⟩

/-- Settles O49: both ways to fault write the mode only, one of them after the advance of PC. -/
theorem aFaultingStepChangesOnlyModeAndPc : Obligations.AFaultingStepChangesOnlyModeAndPc := by
  intro s t hw hs hf
  rcases step_fault_cases hw hs hf with ⟨hpc, rfl⟩ | ⟨i, e, ⟨-, hpc, -⟩, -, rfl⟩
  · exact ⟨rfl, fun _ => rfl, fun hin => absurd hpc (by omega)⟩
  · exact ⟨rfl, fun hout => absurd hpc (by omega), fun _ => rfl⟩

/-- Settles O50: by `core_run_keeps`, since only a reset ends the mode Faulted. -/
theorem faultedUntilReset : Obligations.FaultedUntilReset := by
  intro k s e hm hev
  have hkeep : ∀ u t, OnlyHostFieldsDiffer s u → ¬ u.nextEvent.IsReset → step u = .next t →
      OnlyHostFieldsDiffer s t := by
    intro u t hu hreset hs
    have hmode : u.mode = .faulted e := hu.mode_eq.trans hm
    exact hu.trans (step_onlyHostFieldsDiffer hs (by simp [hmode]) hreset fun _ _ x => by simp [hmode])
  obtain ⟨t, hrun, ht, -⟩ := core_run_keeps (by simp [Event.IsReset]) hkeep (.refl s) hev
  exact ⟨t, hrun, ht⟩

/-! ## stop and start (R321) -/

theorem tickDt_disabled {s : State} (h : s.enabled = false) : tickDt s = s := by
  rw [tickDt, if_neg (Bool.eq_false_iff.mp h)]

theorem tickSt_disabled {s : State} (h : s.enabled = false) : tickSt s = s := by
  rw [tickSt, if_neg (Bool.eq_false_iff.mp h)]

theorem keyDown_disabled {s : State} (h : s.enabled = false) (id : KeyId) :
    keyDown id s = { s with keys := s.keys ||| keyMask id } :=
  keyDown_endsNoWait (.inr (.inl h))

theorem not_willExecute_of_disabled {s : State} (h : s.enabled = false) : ¬ s.WillExecute :=
  fun ⟨_, hen, _⟩ => Bool.eq_false_iff.mp h hen

/-- Settles O51: each event by its own law. -/
theorem stopAndStartSwitchTheTasks : Obligations.StopAndStartSwitchTheTasks := by
  intro s rest
  refine ⟨step_of_schedule_cons, step_of_schedule_cons, fun hdis hev => ?_, fun hdis id hsched => ?_⟩
  · rcases hev with he | he | he
    · exact step_idle he (not_willExecute_of_disabled hdis)
    · rw [step_eq, he, applyEvent, tickDt_disabled (s := s.popEvent) hdis]; rfl
    · rw [step_eq, he, applyEvent, tickSt_disabled (s := s.popEvent) hdis]; rfl
  · rw [step_of_schedule_cons hsched, applyEvent, keyDown_disabled (s := { s with schedule := rest }) hdis]
    exact ⟨_, rfl, rfl⟩

/-- Nothing has changed but the Input Surface and the schedule. -/
def OnlyInputsDiffer (s t : State) : Prop := t = { s with keys := t.keys, schedule := t.schedule }

theorem OnlyInputsDiffer.refl (s : State) : OnlyInputsDiffer s s := rfl

theorem OnlyInputsDiffer.trans {s t u : State} (hst : OnlyInputsDiffer s t) (htu : OnlyInputsDiffer t u) :
    OnlyInputsDiffer s u := by
  unfold OnlyInputsDiffer at hst htu
  rw [hst] at htu
  exact htu

theorem OnlyInputsDiffer.enabled_eq {s t : State} (h : OnlyInputsDiffer s t) : t.enabled = s.enabled := by
  rw [h]

/-- A step of a stopped block that is no start and no reset. -/
theorem step_onlyInputsDiffer {s t : State} (hs : step s = .next t) (hdis : s.enabled = false)
    (hstart : s.nextEvent ≠ .start) (hreset : ¬ s.nextEvent.IsReset) : OnlyInputsDiffer s t := by
  have hidle := not_willExecute_of_disabled hdis
  rcases step_cases hs fun rom h => hreset ⟨rom, h⟩ with
    ⟨hw, -⟩ | ⟨hw, -⟩ | ⟨-, -, rfl⟩ | ⟨-, rfl⟩ | ⟨-, rfl⟩ | ⟨id, -, rfl⟩ | ⟨id, -, rfl⟩ | ⟨-, rfl⟩ | ⟨he, -⟩
  · exact absurd hw hidle
  · exact absurd hw hidle
  · rfl
  · rw [tickDt_disabled (s := s.popEvent) hdis]; rfl
  · rw [tickSt_disabled (s := s.popEvent) hdis]; rfl
  · rw [keyDown_disabled (s := s.popEvent) hdis]; rfl
  · rfl
  · rw [stop, OnlyInputsDiffer, ← hdis]; rfl
  · exact absurd he hstart

/-- Settles O52: by `core_run_keeps`, which also says what is left of the schedule. -/
theorem stoppedBlockIsFrozen : Obligations.StoppedBlockIsFrozen := by
  intro k s hdis hev
  have hkeep : ∀ u t, OnlyInputsDiffer s u → (u.nextEvent ≠ .start ∧ ¬ u.nextEvent.IsReset) → step u = .next t →
      OnlyInputsDiffer s t := by
    rintro u t hu ⟨hstart, hreset⟩ hs
    exact hu.trans (step_onlyInputsDiffer hs (hu.enabled_eq.trans hdis) hstart hreset)
  have hstep : Event.step ≠ .start ∧ ¬ Event.step.IsReset := by simp [Event.IsReset]
  obtain ⟨t, hrun, ht, hsched⟩ := core_run_keeps hstep hkeep (.refl s) hev
  exact ⟨t, hrun, hsched ▸ ht⟩

/-! ## What the host's events write (R322) -/

/-- A key press ends a wait or writes the Input Surface only. -/
theorem keyDown_cases (id : KeyId) (s : State) :
    (∃ x, s.mode = .waiting x ∧
      keyDown id s = { s.setV x (keyByte id) with mode := .running, keys := s.keys ||| keyMask id }) ∨
    keyDown id s = { s with keys := s.keys ||| keyMask id } := by
  rcases endWait_cases id (s.keys.getLsbD id.val) { s with keys := s.keys ||| keyMask id } with
    ⟨x, hm, -, -, hk⟩ | ⟨-, hk⟩
  · exact .inl ⟨x, hm, hk⟩
  · exact .inr hk

/-- An event that is neither a step nor a reset writes host fields only, or ends a wait. -/
theorem hostEvent_cases {s t : State} (hs : step s = .next t) (hstep : s.nextEvent ≠ .step)
    (hreset : ¬ s.nextEvent.IsReset) :
    OnlyHostFieldsDiffer s t ∨
    ∃ id x, s.nextEvent = .keyDown id ∧ s.mode = .waiting x ∧
      t = { s.popEvent.setV x (keyByte id) with mode := .running, keys := s.keys ||| keyMask id } := by
  rcases step_event_cases hs with ⟨he, -⟩ | ⟨-, rfl⟩ | ⟨-, rfl⟩ | ⟨id, he, rfl⟩ | ⟨id, -, rfl⟩ | ⟨rom, he, -⟩ |
    ⟨-, rfl⟩ | ⟨-, rfl⟩
  · exact absurd he hstep
  · rw [tickDt_eq]; exact .inl rfl
  · rw [tickSt_eq]; exact .inl rfl
  · rcases keyDown_cases id s.popEvent with ⟨x, hm, hk⟩ | hk
    · exact .inr ⟨id, x, he, hm, hk⟩
    · rw [hk]; exact .inl rfl
  · exact .inl rfl
  · exact absurd ⟨rom, he⟩ hreset
  · exact .inl rfl
  · exact .inl rfl

/-- The fields that no instruction and no reset writes: the two parameters, `enabled` and the Input Surface. -/
structure KeepsHostFields (s t : State) : Prop where
  strictUnknown : t.strictUnknown = s.strictUnknown
  zeroWordPolicy : t.zeroWordPolicy = s.zeroWordPolicy
  enabled : t.enabled = s.enabled
  keys : t.keys = s.keys

theorem engineStep_keepsHostFields {s t : State} (h : engineStep s = .next t) : KeepsHostFields s t := by
  rcases engineStep_cases s with ⟨-, he⟩ | ⟨-, -, he⟩ | ⟨-, -, he⟩ <;> rw [he] at h
  · cases h
    exact ⟨rfl, rfl, rfl, rfl⟩
  · cases h
    exact ⟨rfl, rfl, rfl, rfl⟩
  · rcases exec_cases h with ⟨e, -, rfl⟩ | ⟨-, rfl⟩
    · exact ⟨rfl, rfl, rfl, rfl⟩
    · exact ⟨effect_strictUnknown _ _, effect_zeroWordPolicy _ _, effect_enabled _ _, effect_keys _ _⟩

theorem resetWith_keepsHostFields (rom : List Byte) (s : State) : KeepsHostFields s (resetWith rom s) := by
  rcases Nat.lt_or_ge romMax rom.length with hlen | hlen
  · rw [resetWith_refused hlen]
    exact ⟨rfl, rfl, rfl, rfl⟩
  · rw [resetWith_accepted hlen]
    exact ⟨rfl, rfl, rfl, rfl⟩

/-- Who writes the parameters, `enabled` and the Input Surface. -/
theorem step_hostFields {s t : State} (hs : step s = .next t) :
    t.strictUnknown = s.strictUnknown ∧ t.zeroWordPolicy = s.zeroWordPolicy ∧
    (t.enabled ≠ s.enabled → s.nextEvent = .stop ∨ s.nextEvent = .start) ∧
    (t.keys ≠ s.keys → ∃ id, s.nextEvent = .keyDown id ∨ s.nextEvent = .keyUp id) := by
  rcases step_event_cases hs with ⟨-, h⟩ | ⟨-, rfl⟩ | ⟨-, rfl⟩ | ⟨id, he, rfl⟩ | ⟨id, he, rfl⟩ | ⟨rom, -, rfl⟩ |
    ⟨he, rfl⟩ | ⟨he, rfl⟩
  · obtain ⟨hstrict, hzero, hen, hkeys⟩ := engineStep_keepsHostFields h
    exact ⟨hstrict, hzero, absurd hen, absurd hkeys⟩
  · rw [tickDt_eq]; exact ⟨rfl, rfl, absurd rfl, absurd rfl⟩
  · rw [tickSt_eq]; exact ⟨rfl, rfl, absurd rfl, absurd rfl⟩
  · obtain ⟨v, m, hk⟩ := keyDown_only id s.popEvent
    rw [hk]; exact ⟨rfl, rfl, absurd rfl, fun _ => ⟨id, .inl he⟩⟩
  · exact ⟨rfl, rfl, absurd rfl, fun _ => ⟨id, .inr he⟩⟩
  · obtain ⟨hstrict, hzero, hen, hkeys⟩ := resetWith_keepsHostFields rom s.popEvent
    exact ⟨hstrict, hzero, absurd hen, absurd hkeys⟩
  · exact ⟨rfl, rfl, fun _ => .inl he, absurd rfl⟩
  · exact ⟨rfl, rfl, fun _ => .inr he, absurd rfl⟩

/-- Settles O53: host fields only, or the end of a wait, which writes one register besides. -/
theorem whatEventsCanChange : Obligations.WhatEventsCanChange := by
  intro s t hs
  refine ⟨fun hstep hreset => ?_, step_hostFields hs⟩
  rcases hostEvent_cases hs hstep hreset with h | ⟨id, x, he, hm, rfl⟩
  · rw [h]
    exact ⟨rfl, rfl, rfl, rfl, rfl, fun _ => absurd rfl⟩
  · refine ⟨rfl, rfl, rfl, rfl, rfl, fun r hr => ?_⟩
    obtain rfl : r = x := by
      by_contra hne
      exact hr (State.getV_setV_ne s.popEvent hne (keyByte id))
    exact ⟨hm, id, he⟩

/-! ## Every sequence of events is a run (R320) -/

/-- The machine makes the finite run that its schedule lists first. -/
theorem core_run_listed (es rest : List Event) (s : State) :
    ∃ t, applyEvents es s = .next t ∧
      Sys2Proof.core.run es.length { s with schedule := es ++ rest } = .next { t with schedule := rest } := by
  induction es generalizing s with
  | nil => exact ⟨s, rfl, rfl⟩
  | cons e es ih =>
    obtain ⟨u, hu⟩ := applyEvent_total e s
    obtain ⟨t, hes, hrun⟩ := ih u
    exact ⟨t, (applyEvents_cons hu).trans hes, (core_run_succ _ (step_listed (es ++ rest) hu)).trans hrun⟩

/-- The first `k` events of a run lead to its `k`-th state. -/
theorem IsRun.applyEvents_range {events : Nat → Event} {states : Nat → State} (h : IsRun events states) (k : Nat) :
    applyEvents ((List.range k).map events) (states 0) = .next (states k) := by
  induction k with
  | zero => rfl
  | succ k ih =>
    rw [List.range_succ, List.map_append]
    exact applyEvents_snoc ih (h k)

/-- Runs of the same events from the same state are equal. -/
theorem IsRun.unique {events : Nat → Event} {states others : Nat → State} (h : IsRun events states)
    (ho : IsRun events others) (h0 : others 0 = states 0) : others = states := by
  funext k
  induction k with
  | zero => exact h0
  | succ k ih => rw [ho.succ, h.succ, ih]

/-- Settles O8: `statesFrom` is the one run. -/
theorem everyStepAnswersANextState : Obligations.EveryStepAnswersANextState := by
  refine ⟨step_total, core_run_listed, fun events s => ?_⟩
  have hrun := statesFrom_isRun events s
  exact ⟨statesFrom events s, rfl, hrun, hrun.applyEvents_range, fun others h0 ho => hrun.unique ho h0⟩

/-! ## A fair run counts a timer down (R280, R281, R320) -/

/-- What never rises, and falls at each of infinitely many points until it is 0, comes to 0 and stays there. -/
theorem eventually_zero {d : Nat → Nat} {falls : Nat → Prop} {n : Nat} (hle : ∀ m, n ≤ m → d (m + 1) ≤ d m)
    (hfall : ∀ m, n ≤ m → falls m → d (m + 1) ≤ d m - 1) (hoften : ∀ k, ∃ m, k ≤ m ∧ falls m) :
    ∃ k, n ≤ k ∧ ∀ m, k ≤ m → d m = 0 := by
  have hanti : ∀ {k m}, n ≤ k → k ≤ m → d m ≤ d k := by
    intro k m hk hm
    induction m, hm using Nat.le_induction with
    | base => exact le_rfl
    | succ m hm ih => exact (hle m (hk.trans hm)).trans ih
  have hdown : ∀ b, ∃ k, n ≤ k ∧ d k ≤ d n - b := by
    intro b
    induction b with
    | zero => exact ⟨n, le_rfl, le_rfl⟩
    | succ b ih =>
      obtain ⟨k, hk, hdk⟩ := ih
      obtain ⟨m, hm, hf⟩ := hoften k
      have hdm := hanti hk hm
      have hnext := hfall m (hk.trans hm) hf
      exact ⟨m + 1, by omega, by omega⟩
  obtain ⟨k, hk, hdk⟩ := hdown (d n)
  refine ⟨k, hk, fun m hm => ?_⟩
  have hdm := hanti hk hm
  omega

/-- A timer that only its tick writes, and that its tick counts down infinitely often, comes to 0 and stays there. -/
theorem timer_eventually_zero {events : Nat → Event} {tick : Event} {timer : Nat → Byte} {n : Nat}
    (hwrite : ∀ m, n ≤ m → timer (m + 1) ≠ timer m → events m = tick)
    (htick : ∀ m, n ≤ m → events m = tick → timer (m + 1) = countDown (timer m))
    (hoften : ∀ k, ∃ m, k ≤ m ∧ events m = tick) : ∃ k, n ≤ k ∧ ∀ m, k ≤ m → timer m = 0 := by
  have hfall : ∀ m, n ≤ m → events m = tick → (timer (m + 1)).toNat ≤ (timer m).toNat - 1 := fun m hm he => by
    rw [htick m hm he, countDown_toNat]
  have hle : ∀ m, n ≤ m → (timer (m + 1)).toNat ≤ (timer m).toNat := fun m hm => by
    by_cases h : timer (m + 1) = timer m
    · rw [h]
    · exact (hfall m hm (hwrite m hm h)).trans (Nat.sub_le _ 1)
  obtain ⟨k, hk, hzero⟩ := eventually_zero (d := fun m => (timer m).toNat) hle hfall hoften
  exact ⟨k, hk, fun m hm => BitVec.eq_of_toNat_eq (hzero m hm)⟩

/-- The writers of the timers in one event of a run, which are those in a step of the machine that lists it first. -/
theorem applyEvent_timers {e : Event} {s t : State} (h : applyEvent e s = .next t) (hreset : ¬ e.IsReset) :
    (t.dt ≠ s.dt → e = .tickDt ∨ ∃ x, EventExecutes e s (.ldDtVx x)) ∧
    (t.st ≠ s.st → e = .tickSt ∨ ∃ x, EventExecutes e s (.ldStVx x)) :=
  writersOfTheTimers { s with schedule := e :: s.schedule } t h hreset

theorem applyEvent_tickDt {s t : State} (h : applyEvent .tickDt s = .next t) (hen : s.enabled = true) :
    t.dt = countDown s.dt := by
  rw [applyEvent, tickDt_eq, hen] at h
  cases h
  rfl

theorem applyEvent_tickSt {s t : State} (h : applyEvent .tickSt s = .next t) (hen : s.enabled = true) :
    t.st = countDown s.st := by
  rw [applyEvent, tickSt_eq, hen] at h
  cases h
  rfl

/-- Settles O60: fairness brings ticks infinitely often, and nothing but a tick writes the timer. -/
theorem fairRunsCountTheTimersDown : Obligations.FairRunsCountTheTimersDown := by
  intro events states n hrun hfair hen hreset
  have hticks : ∀ e ∈ taskEvents, ∀ k, ∃ m, k ≤ m ∧ events m = e := hfair ⟨n, hen⟩
  refine ⟨fun hno => ?_, fun hno => ?_⟩
  · refine timer_eventually_zero (events := events) (tick := .tickDt) (timer := fun m => (states m).dt)
      (fun m hm hne => ?_) (fun m hm he => applyEvent_tickDt (he ▸ hrun m) (hen m hm)) (hticks _ (by simp [taskEvents]))
    obtain ⟨hdt, -⟩ := applyEvent_timers (hrun m) (hreset m hm)
    exact (hdt hne).resolve_right fun ⟨x, hx⟩ => hno m x hm hx
  · refine timer_eventually_zero (events := events) (tick := .tickSt) (timer := fun m => (states m).st)
      (fun m hm hne => ?_) (fun m hm he => applyEvent_tickSt (he ▸ hrun m) (hen m hm)) (hticks _ (by simp [taskEvents]))
    obtain ⟨-, hst⟩ := applyEvent_timers (hrun m) (hreset m hm)
    exact (hst hne).resolve_right fun ⟨x, hx⟩ => hno m x hm hx

end Sys2Proof.Machine
end

section
/-! SUPPORT. Reset and hazards (70_reset_and_hazards.md): the bytes a step changes, what a reset sets, and the sentinel:
where a run ends, and that its end does not depend on ZERO_WORD_POLICY. -/

namespace Sys2Proof.Machine

/-! ## The bytes a step changes (R343; 20_memory.md R79) -/

/-- A step that is no reset keeps the memory, or its instruction runs without an error. -/
theorem step_keeps_mem_or_effect {s t : State} (hs : step s = .next t) (hreset : ¬ s.nextEvent.IsReset) :
    t.mem = s.mem ∨
    ∃ i, Executes s i ∧ errorOf i s.popEvent.advancePc = none ∧ t = effect i s.popEvent.advancePc := by
  by_cases hw : s.WillExecute
  · rcases step_willExecute_cases hw hs with ⟨-, rfl⟩ | ⟨hpc, hexec⟩
    · exact .inl rfl
    · rcases exec_cases hexec with ⟨e, -, rfl⟩ | ⟨hok, rfl⟩
      · exact .inl rfl
      · exact .inr ⟨_, ⟨hw, hpc, rfl⟩, hok, rfl⟩
  · left
    by_cases hev : s.nextEvent = .step
    · rw [step_idle hev hw] at hs
      cases hs
      rfl
    · obtain ⟨-, -, -, hmem, -⟩ := (whatEventsCanChange s t hs).1 hev hreset
      exact hmem

/-- A store in range changes only bytes of its range. -/
theorem read_changed_in_range {m : Memory} {bytes : List Byte} {base a last : Nat} {s : State}
    (hlen : bytes.length = last + 1) (hok : rangeError base (last + 1) s = none)
    (h : (m.writeBytes base bytes).read a ≠ m.read a) : base ≤ a ∧ a ≤ base + last ∧ base + last ≤ 0xFFF := by
  have hin := rangeError_none hok
  have hinside : ¬ (a < base ∨ base + bytes.length ≤ a) := fun hout => h (m.read_writeBytes_outside bytes base a hout)
  omega

/-- An effect changes only bytes that its instruction, Fx33 or Fx55, stores to. -/
theorem effect_changes_stored_bytes {i : Instr} {s : State} {a : Nat} (hok : errorOf i s = none)
    (h : (effect i s).mem.read a ≠ s.mem.read a) :
    (∃ x, i = .ldBVx x ∧ s.i.toNat ≤ a ∧ a ≤ s.i.toNat + 2 ∧ s.i.toNat + 2 ≤ 0xFFF) ∨
    (∃ x : Reg, i = .ldMemVx x ∧ s.i.toNat ≤ a ∧ a ≤ s.i.toNat + x.val ∧ s.i.toNat + x.val ≤ 0xFFF) := by
  cases i with
  | ldBVx x => exact .inl ⟨x, rfl, read_changed_in_range rfl hok h⟩
  | ldMemVx x => exact .inr ⟨x, rfl, read_changed_in_range (s.regsUpTo_length x) hok h⟩
  | zero => rw [effect_zero] at h; exact absurd rfl h
  | seVxKk | sneVxKk | seVxVy | sneVxVy | skp | sknp => rw [effect, State.skipIf_mem] at h; exact absurd rfl h
  | _ => exact absurd rfl h

/-- Settles O34: a byte that no reset changed is one the effect of an executed store changed. -/
theorem onlyStoresAndResetChangeMemory : Obligations.OnlyStoresAndResetChangeMemory := by
  intro s t a hs hne
  by_cases hreset : s.nextEvent.IsReset
  · exact .inl hreset
  · right
    rcases step_keeps_mem_or_effect hs hreset with hmem | ⟨i, hx, hok, rfl⟩
    · exact absurd (congrArg (Memory.read · a) hmem) hne
    · rcases effect_changes_stored_bytes hok hne with ⟨x, rfl, hrange⟩ | ⟨x, rfl, hrange⟩
      · exact .inl ⟨x, hx, hrange⟩
      · exact .inr ⟨x, hx, hrange⟩

/-! ## What a reset sets (R340; 10_state.md R48) -/

/-- After an accepted reset the ROM's bytes stand from 0x200 up (20_memory.md R84). -/
theorem resetWith_read_rom {rom : List Byte} (h : rom.length ≤ romMax) (s : State) {k : Nat} (hk : k < rom.length) :
    (resetWith rom s).mem.read (0x200 + k) = rom[k] := by
  rw [resetWith_accepted h]
  exact Memory.read_writeBytes_inside rom [] romBase k hk

/-- After an accepted reset every byte outside the font and the ROM is 0 (D7). -/
theorem resetWith_read_zero {rom : List Byte} (h : rom.length ≤ romMax) (s : State) {a : Nat}
    (ha : a < Config.fontBase.val ∨ (Config.fontBase.val + 80 ≤ a ∧ a < 0x200) ∨ 0x200 + rom.length ≤ a) :
    (resetWith rom s).mem.read a = 0 := by
  have hroom := fontBase_room
  rw [resetWith_accepted h, Memory.read_writeBytes_outside _ _ _ _ (by rw [romBase]; omega)]
  exact Memory.unlisted_zero (by omega)

/-- Settles O54: the registers, the pixels and the bytes by their own laws, the other items by the definition. -/
theorem resetSetsEveryItem : Obligations.ResetSetsEveryItem := by
  intro s rom rest hsched
  rw [step_of_schedule_cons hsched]
  refine ⟨fun hlen => ⟨_, rfl, ?_⟩, fun hlen => congrArg _ (resetWith_refused hlen _)⟩
  have hfont := resetWith_read_font hlen { s with schedule := rest }
  have hrom := fun k hk => resetWith_read_rom hlen { s with schedule := rest } (k := k) hk
  have hzero := fun a ha => resetWith_read_zero hlen { s with schedule := rest } (a := a) ha
  rw [resetWith_accepted hlen] at hfont hrom hzero ⊢
  exact ⟨fun r => Vector.getElem_replicate _, rfl, rfl, rfl, rfl, rfl, rfl, Framebuffer.pixel_cleared, hfont, hrom,
    hzero, rfl⟩

/-! ## A step at the sentinel (R350; 40_step_and_control.md R133) -/

theorem wordOfBytes_eq_zero_iff (hi lo : Byte) : wordOfBytes hi lo = 0x0000#16 ↔ hi = 0 ∧ lo = 0 := by
  simp [← BitVec.toNat_inj, Laws.wordOfBytes_toNat]

theorem fetch_eq_ok_iff (s : State) (op : Word) :
    fetch s = .ok op ↔ s.pc.toNat ≤ 0xFFE ∧ s.mem.fetchWord s.pc.toNat = op := by
  by_cases hpc : s.pc.toNat ≤ 0xFFE
  · simp [fetch_ok hpc, hpc]
  · simp [fetch_fault (s := s) (by omega), hpc]

theorem fetchesSentinel_iff (e : Event) (s : State) : FetchesSentinel e s ↔
    HasEffect e s ∧ s.pc.toNat ≤ 0xFFE ∧ s.mem.read s.pc.toNat = 0 ∧ s.mem.read (s.pc.toNat + 1) = 0 := by
  rw [FetchesSentinel, fetch_eq_ok_iff, Memory.fetchWord, wordOfBytes_eq_zero_iff]

/-- The sentinel is the one word that decodes to ZERO. -/
theorem decodeWord_eq_zero_iff (op : Word) : decodeWord op = .zero ↔ op = 0x0000#16 := by
  refine ⟨fun h => ?_, fun h => h ▸ rfl⟩
  have hop := Laws.encode_decodeWord op
  rw [h] at hop
  exact hop.symm

/-- A step that fetches the sentinel moves PC as ZERO_WORD_POLICY says and changes nothing else. -/
theorem step_atEnd {s : State} (h : s.AtEnd) :
    step s = .next { s.popEvent with pc := if s.zeroWordPolicy = .hold then s.pc else s.pc + 2 } := by
  obtain ⟨hw, hfetch⟩ := h
  obtain ⟨hpc, hword⟩ := (fetch_eq_ok_iff s _).mp hfetch
  rw [step_run hw hpc, (decodeWord_eq_zero_iff _).mpr hword, exec_zero, effect_zero, State.advancePc_fetchAddr]
  rfl

/-! ## Where a run ends (R350) -/

/-- A block that fetches the sentinel is Running, so not Faulted. -/
theorem FetchesSentinel.safe {e : Event} {s : State} (h : FetchesSentinel e s) : s.faultOut = none := by
  obtain ⟨⟨-, -, hrun⟩, -⟩ := h
  rw [State.faultOut, hrun]

section
variable {events : Nat → Event} {states : Nat → State} {n m : Nat}

/-- No fetch of the sentinel comes before the end. -/
theorem EndsAt.le (h : EndsAt events states n) (hm : FetchesSentinel (events m) (states m)) : n ≤ m := by
  by_contra hlt
  exact (h.2 m (by omega)).1 hm

theorem EndsAt.unique (hn : EndsAt events states n) (hm : EndsAt events states m) : n = m :=
  Nat.le_antisymm (hn.le hm.1) (hm.le hn.1)

/-- A run does not end at or after a fault that comes before every fetch of the sentinel. -/
theorem not_endsAt_of_faulted (hf : (states m).faultOut ≠ none)
    (hbefore : ∀ k, k < m → ¬ FetchesSentinel (events k) (states k)) : ¬ EndsAt events states n := by
  rintro ⟨hn, hsafe⟩
  rcases Nat.lt_trichotomy m n with hlt | rfl | hlt
  · exact hf (hsafe m hlt).2
  · exact hf hn.safe
  · exact hbefore n hlt hn

theorem endsAt_zero_iff : EndsAt events states 0 ↔ FetchesSentinel (events 0) (states 0) := by
  simp [EndsAt]

/-- A run ends at event `n + 1` when its first event neither ends it nor finds it Faulted and the rest of it ends at
event `n`. -/
theorem endsAt_succ_iff : EndsAt events states (n + 1) ↔
    ¬ FetchesSentinel (events 0) (states 0) ∧ (states 0).faultOut = none ∧
      EndsAt (fun k => events (k + 1)) (fun k => states (k + 1)) n := by
  rw [EndsAt, Nat.forall_lt_succ_left, EndsAt]
  tauto

/-- Its first `k` events, as a finite run, have the end of the run when it comes among them. -/
theorem IsRun.endsFinite_iff (h : IsRun events states) (k : Nat) (t : State) :
    EndsFinite ((List.range k).map events) (states 0) t ↔ ∃ n, n < k ∧ EndsAt events states n ∧ t = states n := by
  induction k generalizing events states with
  | zero => simp [EndsFinite]
  | succ k ih =>
    have hrest : (∃ u, applyEvent (events 0) (states 0) = .next u ∧
        EndsFinite ((List.range k).map fun j => events (j + 1)) u t) ↔
        ∃ n, n < k ∧ EndsAt (fun j => events (j + 1)) (fun j => states (j + 1)) n ∧ t = states (n + 1) := by
      rw [h 0, ← ih fun j => h (j + 1)]
      simp
    rw [List.range_succ_eq_map, List.map_cons, List.map_map, EndsFinite, Nat.exists_lt_succ_left, endsAt_zero_iff]
    simp only [endsAt_succ_iff, Function.comp_def, Nat.succ_eq_add_one, hrest]
    refine or_congr Iff.rfl ?_
    constructor
    · rintro ⟨hno, hsafe, n, hn, hend, ht⟩
      exact ⟨n, hn, ⟨hno, hsafe, hend⟩, ht⟩
    · rintro ⟨n, hn, ⟨hno, hsafe, hend⟩, ht⟩
      exact ⟨hno, hsafe, n, hn, hend, ht⟩

end

/-! ## The end is the same under both values of ZERO_WORD_POLICY (R350, D2) -/

theorem errorOf_withPolicy (i : Instr) (s : State) (policy : ZeroWordPolicy) :
    errorOf i { s with zeroWordPolicy := policy } = errorOf i s := by
  cases i <;> rfl

/-- Beside the sentinel no effect depends on the policy. -/
theorem effect_withPolicy {i : Instr} (hi : i ≠ .zero) (s : State) (policy : ZeroWordPolicy) :
    effect i { s with zeroWordPolicy := policy } = { effect i s with zeroWordPolicy := policy } := by
  cases i with
  | zero => exact absurd rfl hi
  | seVxKk | sneVxKk | seVxVy | sneVxVy | skp | sknp => simp only [effect, State.skipIf_eq]; rfl
  | _ => rfl

theorem exec_withPolicy {i : Instr} {s t : State} (hi : i ≠ .zero) (policy : ZeroWordPolicy) (h : exec i s = .next t) :
    exec i { s with zeroWordPolicy := policy } = .next { t with zeroWordPolicy := policy } := by
  rw [exec_eq, errorOf_withPolicy, effect_withPolicy hi]
  rcases exec_cases h with ⟨e, he, rfl⟩ | ⟨he, rfl⟩
  · rw [he]; rfl
  · rw [he]

theorem engineStep_withPolicy {s t : State} (hno : ¬ FetchesSentinel .step s) (policy : ZeroWordPolicy)
    (h : engineStep s = .next t) :
    engineStep { s with zeroWordPolicy := policy } = .next { t with zeroWordPolicy := policy } := by
  rcases engineStep_cases s with ⟨hidle, he⟩ | ⟨hrun, hpc, he⟩ | ⟨hrun, hpc, he⟩ <;> rw [he] at h
  · cases h
    exact engineStep_idle (s := { s with zeroWordPolicy := policy }) hidle
  · cases h
    exact engineStep_fetchFault (s := { s with zeroWordPolicy := policy }) hrun hpc
  · have hword : decodeWord (s.mem.fetchWord s.pc.toNat) ≠ .zero := fun hz =>
      hno ⟨⟨rfl, hrun⟩, (fetch_eq_ok_iff s _).mpr ⟨hpc, (decodeWord_eq_zero_iff _).mp hz⟩⟩
    exact (engineStep_run (s := { s with zeroWordPolicy := policy }) hrun hpc).trans (exec_withPolicy hword policy h)

theorem keyDown_withPolicy (id : KeyId) (s : State) (policy : ZeroWordPolicy) :
    keyDown id { s with zeroWordPolicy := policy } = { keyDown id s with zeroWordPolicy := policy } := by
  simp only [keyDown, endWait]
  cases s.mode with
  | waiting x => dsimp only; split <;> rfl
  | running => rfl
  | faulted e => rfl

theorem resetWith_withPolicy (rom : List Byte) (s : State) (policy : ZeroWordPolicy) :
    resetWith rom { s with zeroWordPolicy := policy } = { resetWith rom s with zeroWordPolicy := policy } := by
  rw [resetWith, resetWith]
  split <;> rfl

/-- An event that does not fetch the sentinel does the same under both policies. -/
theorem applyEvent_withPolicy {e : Event} {s t : State} (hno : ¬ FetchesSentinel e s) (policy : ZeroWordPolicy)
    (h : applyEvent e s = .next t) :
    applyEvent e { s with zeroWordPolicy := policy } = .next { t with zeroWordPolicy := policy } := by
  cases e with
  | step => exact engineStep_withPolicy hno policy h
  | tickDt => cases h; rw [applyEvent, tickDt_eq, tickDt_eq]
  | tickSt => cases h; rw [applyEvent, tickSt_eq, tickSt_eq]
  | keyDown id => cases h; rw [applyEvent, keyDown_withPolicy]
  | reset rom => cases h; rw [applyEvent, resetWith_withPolicy]
  | keyUp | stop | start => cases h; rfl

/-- Up to its end a run goes through the same states under the other policy. -/
theorem IsRun.withPolicy_upToEnd {events : Nat → Event} {states others : Nat → State} {policy : ZeroWordPolicy}
    {n : Nat} (h : IsRun events states) (ho : IsRun events others)
    (h0 : others 0 = { states 0 with zeroWordPolicy := policy }) (hend : EndsAt events states n) :
    ∀ m, m ≤ n → others m = { states m with zeroWordPolicy := policy } := by
  intro m hm
  induction m with
  | zero => exact h0
  | succ m ih =>
    have hsame := applyEvent_withPolicy (hend.2 m hm).1 policy (h m)
    rw [← ih (by omega), ho m] at hsame
    injection hsame

/-- A run ends at the same event under the other policy: where it fetches the sentinel and whether it is Faulted do not
depend on the policy. -/
theorem EndsAt.withPolicy {events : Nat → Event} {states others : Nat → State} {policy : ZeroWordPolicy} {n : Nat}
    (hend : EndsAt events states n) (hsame : ∀ m, m ≤ n → others m = { states m with zeroWordPolicy := policy }) :
    EndsAt events others n := by
  obtain ⟨hn, hbefore⟩ := hend
  refine ⟨?_, fun m hm => ?_⟩
  · rw [hsame n le_rfl]; exact hn
  · rw [hsame m hm.le]; exact hbefore m hm

/-- Settles O59: the step at the sentinel by `step_atEnd`, the end of a run as the first fetch of the sentinel. -/
theorem theSentinelEndsARunButNotTheBlock : Obligations.TheSentinelEndsARunButNotTheBlock := by
  refine ⟨fun s => ⟨fetchesSentinel_iff _ s, fun h hadvance => ?_, fun h hhold => ?_⟩, fun events states hrun =>
    ⟨?_, fun n hn m hm => hn.le hm, ?_, hrun.endsFinite_iff, fun policy others ho h0 n hend => ?_⟩⟩
  · rw [step_atEnd h, if_neg (by rw [hadvance]; decide)]
    rfl
  · rw [step_atEnd h, if_pos hhold]
    rfl
  · rintro t u ⟨n, hn, rfl⟩ ⟨m, hm, rfl⟩
    rw [hn.unique hm]
  · rintro m hf hbefore t ⟨n, hn, -⟩
    exact not_endsAt_of_faulted hf hbefore hn
  · have hsame := hrun.withPolicy_upToEnd ho h0 hend
    exact ⟨hend.withPolicy hsame, hsame n le_rfl⟩

end Sys2Proof.Machine
end
